-- ==== Sys2Proof/Word.lean ====
section
/-! DEFINITION. The word types of the SPEX-UART core and the names of its two instances. -/

namespace Sys2Proof

/-- A 32-bit value: an operand word, a response word, a register image (R63, R65, R68). -/
abbrev Word := BitVec 32

/-- A byte of payload; every value 0x00 to 0xFF is data (R33, R66). -/
abbrev Byte := BitVec 8

/-- A 16-bit operation word OPW (R63, R64). -/
abbrev Opw := BitVec 16

/-- The two instances of the core, numbered 0 and 1 (R3). -/
inductive Inst where
  | i0
  | i1
  deriving DecidableEq, Repr

/-- The other instance, written 1-i in the spec (R93). -/
def Inst.other : Inst → Inst
  | .i0 => .i1
  | .i1 => .i0

end Sys2Proof
end

