-- ==== Sys2Proof/Config.lean ====
section
/-! DEFINITION. The implementation parameters of 00_scope.md section 4, and the one free value: the
choice among agents that have a step. -/

namespace Sys2Proof

/-- CHAN_MODE: the queued (interrupt-driven) or the polled API (R10). -/
inductive ChanMode where
  | queued
  | polled
  deriving DecidableEq, Repr

/-- TX_IDLE_POLICY: what TXI does to TIE over an empty TX queue (R9, R96, R97). -/
inductive TxIdlePolicy where
  | disarm
  | keepArmed
  deriving DecidableEq, Repr

/-- The parameters of one instance, fixed at build time (R6, R7, R10, R13). -/
structure InstConfig where
  /-- MODULE_CLOCK_HZ, 32-bit unsigned; zero is legal (R6). -/
  moduleClockHz : Word
  /-- CAP_TX, a power of two in 2 .. 256 (R7); checked before a run, not by the type. -/
  capTx : Nat
  /-- CAP_RX, likewise (R7). -/
  capRx : Nat
  /-- CHAN_MODE (R10). -/
  mode : ChanMode
  /-- RATE_OTHER_RESET, the reset value of the 14 unrelated bits of RATE (R13). -/
  rateOther : BitVec 14
  deriving DecidableEq, Repr

/-- The build's configuration. N_INST = 2 (R3), SBR_W = 13 and BRFA_W = 5 (R8), RX_FULL_POLICY =
DROP_NEWEST (R11) and RXDROP_W = 32 (R12) are fixed and stand in the types and meanings. -/
structure Config where
  inst0 : InstConfig
  inst1 : InstConfig
  txIdlePolicy : TxIdlePolicy
  deriving DecidableEq, Repr

/-- The parameters of instance `i`. -/
def Config.inst (c : Config) : Inst → InstConfig
  | .i0 => c.inst0
  | .i1 => c.inst1

/-- FREE VALUE. Which of several agents that have a step takes it is left open (R56, R128 a); where
the state's agenda does not say, this constant of the step's number decides. It has no body, so a
claim about a step holds for every order. Log entry 2. -/
opaque Config.freeChoice : Nat → Nat

end Sys2Proof
end

