-- ==== Sys2Proof/Syntax.lean ====
section
/-! DEFINITION. The ten operations of the opcode table (R67) as syntax, their mnemonics and their
assembler spelling (R72). -/

namespace Sys2Proof

/-- One constructor per row of spec/opcode_table.json. The instance is OPW[8], the byte and the
selector are OPW[7:0] (R66); the 32-bit operands are OPA and OPB (R65). -/
inductive Instr where
  /-- CALC clk, baud (R85). -/
  | calcDiv (clk baud : Word)
  /-- INIT.i baud (R109). -/
  | init (n : Inst) (baud : Word)
  /-- START.i (R111). -/
  | start (n : Inst)
  /-- PUT.i b (R86). -/
  | put (n : Inst) (b : Byte)
  /-- GET.i (R90). -/
  | get (n : Inst)
  /-- BPUT.i b (R114). -/
  | bput (n : Inst) (b : Byte)
  /-- BGET.i (R115). -/
  | bget (n : Inst)
  /-- STAT.i sel (R113). -/
  | stat (n : Inst) (sel : Byte)
  /-- TXI.i, an entry point (R94). -/
  | txi (n : Inst)
  /-- RXI.i, an entry point (R95). -/
  | rxi (n : Inst)
  deriving DecidableEq, Repr

/-- The mnemonic of the instruction's row (R67). -/
def Instr.mnemonic : Instr → String
  | .calcDiv _ _ => "CALC"
  | .init _ _ => "INIT"
  | .start _ => "START"
  | .put _ _ => "PUT"
  | .get _ => "GET"
  | .bput _ _ => "BPUT"
  | .bget _ => "BGET"
  | .stat _ _ => "STAT"
  | .txi _ => "TXI"
  | .rxi _ => "RXI"

/-- The instance the instruction addresses; CALC addresses none (R85: it reads no instance). -/
def Instr.inst? : Instr → Option Inst
  | .calcDiv _ _ => none
  | .init n _ => some n
  | .start n => some n
  | .put n _ => some n
  | .get n => some n
  | .bput n _ => some n
  | .bget n => some n
  | .stat n _ => some n
  | .txi n => some n
  | .rxi n => some n

/-- The two entry points, which only the interrupt arbiter issues (R67, R70 f). -/
def Instr.isEntryPoint : Instr → Bool
  | .txi _ => true
  | .rxi _ => true
  | .calcDiv _ _ => false
  | .init _ _ => false
  | .start _ => false
  | .put _ _ => false
  | .get _ => false
  | .bput _ _ => false
  | .bget _ => false
  | .stat _ _ => false

/-- The suffix that names the instance (R72). -/
def Inst.suffix : Inst → String
  | .i0 => ".0"
  | .i1 => ".1"

/-- The assembler spelling of R72, operands in decimal (R72 allows decimal or hexadecimal; log entry 20). -/
def Instr.asm : Instr → String
  | .calcDiv clk baud => "CALC " ++ toString clk.toNat ++ ", " ++ toString baud.toNat
  | .init n baud => "INIT" ++ n.suffix ++ " " ++ toString baud.toNat
  | .start n => "START" ++ n.suffix
  | .put n b => "PUT" ++ n.suffix ++ " " ++ toString b.toNat
  | .get n => "GET" ++ n.suffix
  | .bput n b => "BPUT" ++ n.suffix ++ " " ++ toString b.toNat
  | .bget n => "BGET" ++ n.suffix
  | .stat n sel => "STAT" ++ n.suffix ++ " " ++ toString sel.toNat
  | .txi n => "TXI" ++ n.suffix
  | .rxi n => "RXI" ++ n.suffix

end Sys2Proof
end

