-- ==== Sys2Proof/WellFormed.lean ====
section
/-! DEFINITION. When an instruction as syntax has an encoding. -/

namespace Sys2Proof

/-- The one constraint the types do not carry: STAT's selector is at most 6, selectors 7 to 255 are
reserved (R42, R70 e, R113). CALC's INST = 0 (R70 d) and DATA = 0 where unused (R70 c) have no field
here that could break them. -/
def Instr.wellFormed : Instr → Bool
  | .stat _ sel => decide (sel.toNat ≤ 6)
  | .calcDiv _ _ => true
  | .init _ _ => true
  | .start _ => true
  | .put _ _ => true
  | .get _ => true
  | .bput _ _ => true
  | .bget _ => true
  | .txi _ => true
  | .rxi _ => true

end Sys2Proof
end

