-- ==== Sys2Proof/Decode.lean ====
section
/-! DEFINITION. Requests, the decoder of 30_encoding.md (total, rejecting by name), the encoder, the
opcode table's match and mask rows, and the reading of a table word. -/

namespace Sys2Proof

/-- A request as the mainline delivers it: OPW and the operand words. A request that takes fewer
operands carries values there that are not part of it and are never read (R63, R65, R70). -/
structure Request where
  opw : Opw
  opa : Word
  opb : Word
  deriving DecidableEq, Repr

/-- Why a word is illegal: the clauses (a) to (f) of R70. -/
inductive DecodeError where
  /-- (a) OP is 0x0 or 0xB to 0xF. -/
  | reservedOp
  /-- (b) RSVD is not 000. -/
  | reservedBits
  /-- (c) DATA is not 0x00 in an operation that takes none. -/
  | nonzeroData
  /-- (d) CALC with INST = 1. -/
  | calcInstance
  /-- (e) STAT with a selector above 6. -/
  | reservedSelector
  /-- (f) TXI or RXI offered by the mainline. -/
  | entryPoint
  deriving DecidableEq, Repr

/-- OPW[15:12] (R64). -/
def opField (w : Opw) : BitVec 4 := w.extractLsb' 12 4

/-- OPW[11:9] (R64). -/
def rsvdField (w : Opw) : BitVec 3 := w.extractLsb' 9 3

/-- OPW[8] as a bit (R64). -/
def instField (w : Opw) : BitVec 1 := w.extractLsb' 8 1

/-- OPW[7:0] (R64). -/
def dataField (w : Opw) : Byte := w.extractLsb' 0 8

/-- The instance an INST bit names (R66). -/
def instOfBit (b : BitVec 1) : Inst := if b = 1#1 then .i1 else .i0

/-- An operation that takes no DATA byte rejects a non-zero one (R70 c). -/
def noData (data : Byte) (i : Instr) : Except DecodeError Instr :=
  if data = 0#8 then .ok i else .error .nonzeroData

/-- The opcode map over the fields of a word, with the checks of R70 (a) to (e). -/
def decodeFields (op : Nat) (rsvd : BitVec 3) (inst : BitVec 1) (data : Byte) (opa opb : Word) :
    Except DecodeError Instr :=
  if rsvd = 0#3 then
    match op with
    | 1 => if inst = 0#1 then noData data (.calcDiv opa opb) else .error .calcInstance
    | 2 => noData data (.init (instOfBit inst) opa)
    | 3 => noData data (.start (instOfBit inst))
    | 4 => .ok (.put (instOfBit inst) data)
    | 5 => noData data (.get (instOfBit inst))
    | 6 => .ok (.bput (instOfBit inst) data)
    | 7 => noData data (.bget (instOfBit inst))
    | 8 => if data.toNat ≤ 6 then .ok (.stat (instOfBit inst) data) else .error .reservedSelector
    | 9 => noData data (.txi (instOfBit inst))
    | 10 => noData data (.rxi (instOfBit inst))
    | _ => .error .reservedOp
  else .error .reservedBits

/-- The decoder of R64 to R67 and R70 (a) to (e): every word is one of the ten rows or illegal (R71).
The instance is OPW[8] and the byte or selector OPW[7:0] (R66). The entry points decode here; R70 (f)
is `decodeMainline`. -/
def decode (r : Request) : Except DecodeError Instr :=
  decodeFields (opField r.opw).toNat (rsvdField r.opw) (instField r.opw) (dataField r.opw) r.opa r.opb

/-- What a request offered by the mainline decodes to: the entry points are illegal there (R70 f). -/
def decodeMainline (r : Request) : Except DecodeError Instr :=
  match decode r with
  | .error e => .error e
  | .ok i => if i.isEntryPoint then .error .entryPoint else .ok i

/-- The INST bit in place (R72: i << 8). -/
def instBits : Inst → Opw
  | .i0 => 0x0000#16
  | .i1 => 0x0100#16

/-- The encoder: the words of R67 and R72. Operands an operation does not take are written 0. -/
def encode : Instr → Request
  | .calcDiv clk baud => ⟨0x1000#16, clk, baud⟩
  | .init n baud => ⟨0x2000#16 ||| instBits n, baud, 0#32⟩
  | .start n => ⟨0x3000#16 ||| instBits n, 0#32, 0#32⟩
  | .put n b => ⟨0x4000#16 ||| instBits n ||| b.setWidth 16, 0#32, 0#32⟩
  | .get n => ⟨0x5000#16 ||| instBits n, 0#32, 0#32⟩
  | .bput n b => ⟨0x6000#16 ||| instBits n ||| b.setWidth 16, 0#32, 0#32⟩
  | .bget n => ⟨0x7000#16 ||| instBits n, 0#32, 0#32⟩
  | .stat n sel => ⟨0x8000#16 ||| instBits n ||| sel.setWidth 16, 0#32, 0#32⟩
  | .txi n => ⟨0x9000#16 ||| instBits n, 0#32, 0#32⟩
  | .rxi n => ⟨0xA000#16 ||| instBits n, 0#32, 0#32⟩

/-- How many operand words follow OPW, known from OP alone (R64, R65). -/
def operandWords (w : Opw) : Nat :=
  match (opField w).toNat with
  | 1 => 2
  | 2 => 1
  | _ => 0

/-- A row of the opcode map: a word w selects it when w & mask = match (R67). -/
structure OpcodeRow where
  mnemonic : String
  pattern : Opw
  mask : Opw
  deriving DecidableEq, Repr

/-- w & mask = match (R67). -/
def OpcodeRow.selects (row : OpcodeRow) (w : Opw) : Bool := w &&& row.mask == row.pattern

/-- The ten rows of R67 with their match and mask. -/
def opcodeTable : List OpcodeRow :=
  [ ⟨"CALC", 0x1000#16, 0xFFFF#16⟩, ⟨"INIT", 0x2000#16, 0xFEFF#16⟩, ⟨"START", 0x3000#16, 0xFEFF#16⟩,
    ⟨"PUT", 0x4000#16, 0xFE00#16⟩, ⟨"GET", 0x5000#16, 0xFEFF#16⟩, ⟨"BPUT", 0x6000#16, 0xFE00#16⟩,
    ⟨"BGET", 0x7000#16, 0xFEFF#16⟩, ⟨"STAT", 0x8000#16, 0xFE00#16⟩, ⟨"TXI", 0x9000#16, 0xFEFF#16⟩,
    ⟨"RXI", 0xA000#16, 0xFEFF#16⟩ ]

/-- The instruction's row of the opcode map. -/
def Instr.row : Instr → OpcodeRow
  | .calcDiv _ _ => ⟨"CALC", 0x1000#16, 0xFFFF#16⟩
  | .init _ _ => ⟨"INIT", 0x2000#16, 0xFEFF#16⟩
  | .start _ => ⟨"START", 0x3000#16, 0xFEFF#16⟩
  | .put _ _ => ⟨"PUT", 0x4000#16, 0xFE00#16⟩
  | .get _ => ⟨"GET", 0x5000#16, 0xFEFF#16⟩
  | .bput _ _ => ⟨"BPUT", 0x6000#16, 0xFE00#16⟩
  | .bget _ => ⟨"BGET", 0x7000#16, 0xFEFF#16⟩
  | .stat _ _ => ⟨"STAT", 0x8000#16, 0xFE00#16⟩
  | .txi _ => ⟨"TXI", 0x9000#16, 0xFEFF#16⟩
  | .rxi _ => ⟨"RXI", 0xA000#16, 0xFEFF#16⟩

/-- A request from bits numbered as the opcode table numbers them: OPW is bits 15..0, OPA bits 47..16,
OPB bits 79..48; every bit at or above `nbits` is 0. No memory holds a request, so no byte order enters
(R44; log entry 8). -/
def requestOfTableWord (nbits w : Nat) : Request :=
  let v := w % 2 ^ nbits
  ⟨BitVec.ofNat 16 v, BitVec.ofNat 32 (v >>> 16), BitVec.ofNat 32 (v >>> 48)⟩

/-- The instruction the decoder reads from a table word, none where it refuses. -/
def decodeTableWord (nbits w : Nat) : Option Instr :=
  match decode (requestOfTableWord nbits w) with
  | .ok i => some i
  | .error _ => none

end Sys2Proof
end

