-- ==== Sys2Proof/Machine/Rate.lean ====
section
/-! DEFINITION. The bit layout of RATE (R24): SBR [12:0], OTH0 [15:13], BRFA [20:16], OTH1 [31:21]. -/

namespace Sys2Proof.Machine

/-- RATE at reset: SBR and BRFA 0, OTH0 [15:13] = RATE_OTHER_RESET[2:0] and OTH1 [31:21] =
RATE_OTHER_RESET[13:3] (R24). -/
def rateAtReset (other : BitVec 14) : Word :=
  other.extractLsb' 3 11 ++ 0#5 ++ other.extractLsb' 0 3 ++ 0#13

/-- RATE.SBR (R24). -/
def sbrOf (rate : Word) : BitVec 13 := rate.extractLsb' 0 13

/-- RATE.BRFA (R24). -/
def brfaOf (rate : Word) : BitVec 5 := rate.extractLsb' 16 5

/-- The 14 unrelated bits, OTH1 above OTH0, in the order of RATE_OTHER_RESET (R24). -/
def otherOf (rate : Word) : BitVec 14 := rate.extractLsb' 21 11 ++ rate.extractLsb' 13 3

/-- zext_32(d) | (zext_32(f) << 16): the pair in RATE's positions, as rateWrite ors it in (R83) and as
CALC and INIT respond with it (R68, R85, R109). -/
def ratePair (d : BitVec 13) (f : BitVec 5) : Word :=
  d.setWidth 32 ||| (f.setWidth 32 <<< 16)

/-- The read-modify-write of rateWrite on the register's value: clear SBR and BRFA, or the pair in (R83). -/
def rateMerge (v : Word) (d : BitVec 13) (f : BitVec 5) : Word :=
  (v &&& 0xFFE0E000#32) ||| ratePair d f

end Sys2Proof.Machine
end

