-- ==== Sys2Proof/Machine/State.lean ====
section
/-! DEFINITION. The machine's state as plain data (10_state.md), the reasons a step stops, and the
state after reset (R43). -/

namespace Sys2Proof.Machine

/-- LIFE[i] (R22). -/
inductive Life where
  | uninit
  | configured
  | running
  deriving DecidableEq, Repr

/-- The storage of one queue: slots that hold a byte, as (slot, byte) pairs, slots strictly rising. A
slot that is not listed is `none`, never written (R18, R30, R31). -/
abbrev Memory := List Host.Cell

/-- The state of one instance (R22 to R31, R36, R38). -/
structure Uart where
  /-- LIFE (R22). -/
  life : Life
  /-- PRDY (R27). -/
  prdy : Bool
  /-- BAUD (R23). -/
  baud : Word
  /-- RATE: SBR [12:0], OTH0 [15:13], BRFA [20:16], OTH1 [31:21] (R24). -/
  rate : Word
  /-- TE (R25). -/
  te : Bool
  /-- RE (R25). -/
  re : Bool
  /-- RIE (R25). -/
  rie : Bool
  /-- TIE (R25). -/
  tie : Bool
  /-- TDRE (R26). -/
  tdre : Bool
  /-- RDRF (R26). -/
  rdrf : Bool
  /-- OVR (R26). -/
  ovr : Bool
  /-- TDR, or none where it holds no byte (R28). -/
  tdr : Option Byte
  /-- RDR, or none where it holds no byte (R29). -/
  rdr : Option Byte
  /-- BUF_T (R30). -/
  bufT : Memory
  /-- TWR, next free slot of the TX queue (R30). -/
  twr : Nat
  /-- TRD, next unread slot of the TX queue (R30). -/
  trd : Nat
  /-- BUF_R (R31). -/
  bufR : Memory
  /-- RWR, next free slot of the RX queue (R31). -/
  rwr : Nat
  /-- RRD, next unread slot of the RX queue (R31). -/
  rrd : Nat
  /-- RXDROP (R12, R36). -/
  rxdrop : Word
  /-- WIRE_IN (R14, R38). -/
  wireIn : List Byte
  /-- WIRE_OUT (R14, R38). -/
  wireOut : List Byte
  deriving DecidableEq, Repr

/-- The fault record (R35). -/
structure FaultRecord where
  valid : Bool
  code : BitVec 8
  inst : BitVec 1
  opw : Opw
  deriving DecidableEq, Repr

/-- ML: idle, or busy before the step a request takes next, with the locals its rule names (R37). -/
inductive Mainline where
  | idle
  /-- Busy(PUT, i, M2, w b): the byte is about to be written into slot w (R86). -/
  | putM2 (n : Inst) (w : Nat) (b : Byte)
  /-- Busy(PUT, i, M3, w b): the write cursor is about to be published (R86). -/
  | putM3 (n : Inst) (w : Nat) (b : Byte)
  /-- Busy(PUT, i, M4, w b): TIE is about to be armed (R86). -/
  | putM4 (n : Inst) (w : Nat) (b : Byte)
  /-- Busy(GET, i, M2, r): slot r is about to be read (R90). -/
  | getM2 (n : Inst) (r : Nat)
  /-- Busy(GET, i, M3, r v): the read cursor is about to be published (R90). -/
  | getM3 (n : Inst) (r : Nat) (v : Byte)
  /-- Busy(BPUT, i, M2, b): waits until TDRE = 1 (R114). -/
  | bputM2 (n : Inst) (b : Byte)
  /-- Busy(BGET, i, M2): waits until RDRF = 1 (R115). -/
  | bgetM2 (n : Inst)
  deriving DecidableEq, Repr

/-- One step of one agent, as the scheduler names it: a mainline step, an interrupt step that serves
instance n, a Line step LTX or LRX of instance n (R15, R52, R53, R55). -/
inductive Move where
  | main
  | irq (n : Inst)
  | ltx (n : Inst)
  | lrx (n : Inst)
  deriving DecidableEq, Repr

/-- The whole machine. -/
structure State where
  /-- The build's parameters, which no step changes (R6 to R13, R143; log entry 1). -/
  cfg : Config
  /-- Instance 0. -/
  u0 : Uart
  /-- Instance 1. -/
  u1 : Uart
  /-- FAULT (R35). -/
  fault : FaultRecord
  /-- ML (R37). -/
  ml : Mainline
  /-- MODEL: the requests the mainline program will still offer, next first (R53 b; log entry 3). -/
  program : List Request
  /-- MODEL: the responses delivered, oldest first (R63, R68; log entry 4). -/
  resps : List Word
  /-- MODEL: the moves asked for next, one entry read by each step (R56; log entry 2). -/
  agenda : List Move
  /-- MODEL: how many steps were taken, the argument of the free choice (log entry 2). -/
  tick : Nat
  deriving DecidableEq, Repr

/-- Why a step answers no next state. None of these is one of the core's own faults, which are next
states that write FAULT (R122; log entry 5). -/
inductive Fault where
  /-- FAULT.valid = 1: no agent has a step (R51, R58 faulted). Raised by the scheduler. Safe: the
  hardware has no step either. -/
  | halted
  /-- The run is over: no agent has a step, the mainline is idle with nothing to offer (R58 final).
  Raised by the scheduler. Safe: there is no step. -/
  | ended
  /-- No agent has a step and the mainline waits (R58 stuck, R115). Raised by the scheduler. Safe. -/
  | stuck
  /-- A queue slot that holds `none` is read (R18). Raised by TXI and by GET's M2. Safe: no run of the
  core reads one (R102). -/
  | unwrittenSlot
  /-- A data register that holds its reset value `none` is read (R28, R29). The spec states the stop:
  "unreadable: held as `none`; a read of `none` is a model error that no run reaches"
  (93_implementation_defined.md row 19), "a read faults" (92_eei_decisions.md D11). Raised by LTX, RXI and
  BGET's M2. Safe: in every run TDRE = 1 while TDR is `none` and RDRF = 0 while RDR is (R28, R29). -/
  | unwrittenDataRegister
  /-- A slot index of C or more is used; the slots are 0 .. C-1 (R47). Raised by TXI, RXI and by M2 of
  PUT and GET. Safe: no run has such a cursor (R100; log entry 7). -/
  | noSuchSlot
  deriving DecidableEq, Repr

/-- Why a step gives no meaning. -/
inductive Refusal where
  /-- The instruction has no meaning yet. Raised by arms of exec. Safe. -/
  | notModelled (mnemonic : String)
  /-- The configuration has a capacity outside 2 .. 256 or not a power of two, and is refused (R7,
  R151). Raised by the step. Safe: the machine does not run. -/
  | capacity
  deriving DecidableEq, Repr

/-- No fault (R35). -/
def FaultRecord.clear : FaultRecord := ⟨false, 0#8, 0#1, 0#16⟩

/-- One instance after reset (R43). -/
def Uart.reset (c : InstConfig) (input : List Byte) : Uart where
  life := .uninit
  prdy := false
  baud := 0#32
  rate := rateAtReset c.rateOther
  te := false
  re := false
  rie := false
  tie := false
  tdre := true
  rdrf := false
  ovr := false
  tdr := none
  rdr := none
  bufT := []
  twr := 0
  trd := 0
  bufR := []
  rwr := 0
  rrd := 0
  rxdrop := 0#32
  wireIn := input
  wireOut := []

/-- The machine after reset under configuration `c`, with the run's inputs: the wire of each instance
(R14) and the program the mainline will offer (R43, R142; log entries 1 to 4). -/
def State.resetWith (c : Config) (wire0 wire1 : List Byte) (program : List Request) : State where
  cfg := c
  u0 := Uart.reset c.inst0 wire0
  u1 := Uart.reset c.inst1 wire1
  fault := FaultRecord.clear
  ml := .idle
  program := program
  resps := []
  agenda := []
  tick := 0

/-- One instance's parameters as 95_test_vectors.md's common start state has them. DESIGN CHOICE
where the spec leaves the parameter OPEN (clock and capacities; log entry 1). -/
def InstConfig.common : InstConfig where
  moduleClockHz := 20485760#32
  capTx := 4
  capRx := 4
  mode := .queued
  rateOther := 0#14

/-- The configuration of `State.reset`: the test vectors' clock and capacities, the spec's defaults
elsewhere, DISARM for this hardware (R9). DESIGN CHOICE, log entry 1. -/
def Config.common : Config where
  inst0 := InstConfig.common
  inst1 := InstConfig.common
  txIdlePolicy := .disarm

/-- The machine right after reset: nothing on the wire, nothing offered. -/
def State.reset : State := State.resetWith Config.common [] [] []

end Sys2Proof.Machine
end

