-- ==== Sys2Proof/Machine/Ops.lean ====
section
/-! DEFINITION. The named operations every meaning is written over: instance access, queue slots,
the delivery of a response, raising a fault (the core's one exception entry), the capacity check. -/

namespace Sys2Proof.Machine

/-- What a step or a meaning answers. -/
abbrev Answer := Host.Outcome State Fault Refusal

/-- X[i]: the state of instance `n` (R18). -/
def State.uart (s : State) : Inst → Uart
  | .i0 => s.u0
  | .i1 => s.u1

/-- X[i] <- v: instance `n` replaced, everything else as before (R18, R106). -/
def State.setUart (s : State) (n : Inst) (u : Uart) : State :=
  match n with
  | .i0 => { s with u0 := u }
  | .i1 => { s with u1 := u }

/-- The mainline's position written (R37). -/
def State.setMl (s : State) (m : Mainline) : State := { s with ml := m }

/-- The parameters of instance `n`. -/
def State.params (s : State) (n : Inst) : InstConfig := s.cfg.inst n

/-! ## Queue slots (R18, R30, R31, R47) -/

/-- The byte a slot holds, none where nothing was written (R18). -/
def Memory.read : Memory → Nat → Option Byte
  | [], _ => none
  | (a, b) :: m, k => if k = a then some b else Memory.read m k

/-- A byte written into a slot; the listing stays strictly rising. -/
def Memory.write : Memory → Nat → Byte → Memory
  | [], k, v => [(k, v)]
  | (a, b) :: m, k, v =>
    if k < a then (k, v) :: (a, b) :: m
    else if k = a then (k, v) :: m
    else (a, b) :: Memory.write m k v

/-- Every listed slot is above `k`, and the listing is strictly rising from there. -/
def Memory.risesAbove (k : Nat) : Memory → Bool
  | [] => true
  | (a, _) :: m => decide (k < a) && Memory.risesAbove a m

/-- The canonical form: slots strictly rising. No entry can be `none`, so equal storages are equal lists. -/
def Memory.wf : Memory → Bool
  | [] => true
  | (a, _) :: m => Memory.risesAbove a m

/-- Every listed slot is one of 0 .. C-1 (R47). -/
def Memory.within (C : Nat) : Memory → Bool
  | [] => true
  | (a, _) :: m => decide (a < C) && Memory.within C m

/-- The read of a slot of a queue of capacity C: the slots are 0 .. C-1 (R47), and the read of a slot
that holds `none` is a model fault (R18). -/
def readSlot (C : Nat) (m : Memory) (k : Nat) : Except Fault Byte :=
  if k < C then
    match m.read k with
    | some b => .ok b
    | none => .error .unwrittenSlot
  else .error .noSuchSlot

/-- The write of a slot of a queue of capacity C (R18, R47). -/
def writeSlot (C : Nat) (m : Memory) (k : Nat) (b : Byte) : Except Fault Memory :=
  if k < C then .ok (m.write k b) else .error .noSuchSlot

/-- The read of a data register (R28, R29). One that holds `none` is unreadable, and its read is a model
error (92_eei_decisions.md D11, 93_implementation_defined.md row 19). -/
def readData (r : Option Byte) : Except Fault Byte :=
  match r with
  | some b => .ok b
  | none => .error .unwrittenDataRegister

/-! ## Responses (R63, R68) -/

/-- respond(v): the request in progress ends and its 32-bit response is delivered (R18, R63). -/
def respond (v : Word) (s : State) : State :=
  { s with ml := .idle, resps := s.resps ++ [v] }

/-! ## Raising a fault (R121, R122): the core's one exception entry. There is no return from it: nothing
clears the record but reset. -/

/-- The six faults (R121). -/
inductive FaultCode where
  | illegalOp
  | cfgZero
  | cfgOverflow
  | cfgUnderflow
  | badState
  | badMode
  deriving DecidableEq, Repr

/-- The code of a fault (R121). -/
def faultNumber : FaultCode → BitVec 8
  | .illegalOp => 0x01#8
  | .cfgZero => 0x02#8
  | .cfgOverflow => 0x03#8
  | .cfgUnderflow => 0x04#8
  | .badState => 0x05#8
  | .badMode => 0x06#8

/-- `raise Fault(code)` in M1 of the request whose word is `w`: the record is written if none is valid,
and nothing else changes (R122, R123). -/
def raiseFault (w : Opw) (code : FaultCode) (s : State) : State :=
  if s.fault.valid then s
  else { s with fault := ⟨true, faultNumber code, instField w, w⟩ }

/-- The fault raised by a decoded instruction: its word is the one it is encoded by (log entry 10). -/
def raiseFor (i : Instr) (code : FaultCode) (s : State) : Answer :=
  .next (raiseFault (encode i).opw code s)

/-! ## The configuration check (R7) -/

/-- A capacity the core admits: a power of two, 2 to 256 (R7). -/
def capacityOk (C : Nat) : Bool :=
  [2, 4, 8, 16, 32, 64, 128, 256].contains C

/-- A configuration the core is run with; any other is refused (R7, R151). -/
def configOk (c : Config) : Bool :=
  capacityOk c.inst0.capTx && capacityOk c.inst0.capRx &&
  capacityOk c.inst1.capTx && capacityOk c.inst1.capRx

end Sys2Proof.Machine
end

