-- ==== Sys2Proof/Machine/Flags.lean ====
section
/-! DEFINITION. What is computed from state and not stored: the cursor arithmetic and the empty and
full tests of a queue (R33), the request lines (R34), the lifecycle and mode checks of the requests. -/

namespace Sys2Proof.Machine

/-- The next slot, (c + 1) mod C (R33). -/
def nextSlot (C c : Nat) : Nat := (c + 1) % C

/-- occupancy(w, r) = (w - r) mod C, on mathematical integers (R17, R33). -/
def occupancy (C w r : Nat) : Nat := (((w : Int) - (r : Int)) % (C : Int)).toNat

/-- empty(w, r): w = r (R33). -/
def isEmpty (w r : Nat) : Bool := decide (w = r)

/-- full(w, r): (w + 1) mod C = r (R33). -/
def isFull (C w r : Nat) : Bool := decide (nextSlot C w = r)

/-- TXIRQ = TIE and TDRE (R34, R126). -/
def txIrq (u : Uart) : Bool := u.tie && u.tdre

/-- RXIRQ = RIE and RDRF (R34, R126). -/
def rxIrq (u : Uart) : Bool := u.rie && u.rdrf

/-- Some source of the instance is pending (R34). -/
def pending (u : Uart) : Bool := txIrq u || rxIrq u

/-- Some request line of the core is 1 (R52, R53). -/
def anyPending (s : State) : Bool := pending (s.uart .i0) || pending (s.uart .i1)

/-- The check of PUT, GET, BPUT and BGET, in the order of R124: BAD_STATE unless RUNNING, then BAD_MODE
unless the instance has the mode the request needs (R86, R90, R108, R114, R115). -/
def channelCheck (s : State) (n : Inst) (needed : ChanMode) : Option FaultCode :=
  if (s.uart n).life ≠ .running then some .badState
  else if (s.params n).mode ≠ needed then some .badMode
  else none

end Sys2Proof.Machine
end

