-- ==== Sys2Proof/Machine/Operands.lean ====
section
/-! DEFINITION. The 32-bit words the core gives: the responses of R68 and the register images STAT
selects (R39 to R42). -/

namespace Sys2Proof.Machine

/-- 0x100 | zext_32(v): a byte was returned (R68, R90, R115). -/
def byteResponse (v : Byte) : Word := 0x100#32 ||| v.setWidth 32

/-- One bit of an image at position `k`. -/
def bitAt (b : Bool) (k : Nat) : Word := if b then 1#32 <<< k else 0#32

/-- LIFE's encoding: 0, 1, 2 (R22, R39). -/
def lifeBits : Life → Word
  | .uninit => 0#32
  | .configured => 1#32
  | .running => 2#32

/-- Image 0, STATUS (R39). -/
def statusImage (c : InstConfig) (policy : TxIdlePolicy) (u : Uart) : Word :=
  lifeBits u.life ||| bitAt u.prdy 2 ||| bitAt u.te 3 ||| bitAt u.re 4 ||| bitAt u.tie 5 |||
  bitAt u.rie 6 ||| bitAt u.tdre 7 ||| bitAt u.rdrf 8 ||| bitAt u.ovr 9 |||
  bitAt (decide (c.mode = .polled)) 10 ||| bitAt (decide (policy = .keepArmed)) 11

/-- A field of 8 bits of a queue image. -/
def byteField (v : Nat) (k : Nat) : Word := (BitVec.ofNat 8 v).setWidth 32 <<< k

/-- Images 4 and 5, TXQ and RXQ: read cursor [7:0], write cursor [15:8], occupancy [23:16], C-1
[31:24], all read at one instant (R41). -/
def queueImage (C w r : Nat) : Word :=
  byteField r 0 ||| byteField w 8 ||| byteField (occupancy C w r) 16 ||| byteField (C - 1) 24

/-- The image a selector of STAT names; none above 6 (R39 to R42, R113). -/
def image (s : State) (n : Inst) (sel : Byte) : Option Word :=
  let u := s.uart n
  let c := s.params n
  match sel.toNat with
  | 0 => some (statusImage c s.cfg.txIdlePolicy u)
  | 1 => some u.rate
  | 2 => some u.baud
  | 3 => some c.moduleClockHz
  | 4 => some (queueImage c.capTx u.twr u.trd)
  | 5 => some (queueImage c.capRx u.rwr u.rrd)
  | 6 => some u.rxdrop
  | _ => none

end Sys2Proof.Machine
end

