-- ==== Sys2Proof/Machine/Channel.lean ====
section
/-! DEFINITION. The Buffered Byte Channel: PUT and GET with their steps (41_channel_mainline.md), and
the entry points TXI and RXI (42_channel_interrupt.md). -/

namespace Sys2Proof.Machine

/-! ## PUT (R86) -/

/-- PUT's M1: the checks and the snapshot of the cursors. A full queue rejects and writes nothing (R87). -/
def execPut (n : Inst) (b : Byte) (s : State) : Answer :=
  let u := s.uart n
  match channelCheck s n .queued with
  | some e => raiseFor (.put n b) e s
  | none =>
    if isFull (s.params n).capTx u.twr u.trd then .next (respond 0#32 s)
    else .next (s.setMl (.putM2 n u.twr b))

/-- PUT's M2: the byte is written at the write cursor. -/
def putWrite (n : Inst) (w : Nat) (b : Byte) (s : State) : Answer :=
  let u := s.uart n
  match writeSlot (s.params n).capTx u.bufT w b with
  | .error f => .fault f
  | .ok m => .next ((s.setUart n { u with bufT := m }).setMl (.putM3 n w b))

/-- PUT's M3: the write cursor is published, and the byte becomes visible to TXI. -/
def putPublish (n : Inst) (w : Nat) (b : Byte) (s : State) : Answer :=
  .next ((s.setUart n { s.uart n with twr := nextSlot (s.params n).capTx w }).setMl (.putM4 n w b))

/-- PUT's M4: TIE is armed on every acceptance (R88) and PUT responds 1. -/
def putArm (n : Inst) (s : State) : Answer :=
  .next (respond 1#32 (s.setUart n { s.uart n with tie := true }))

/-! ## GET (R90) -/

/-- GET's M1: the checks and the snapshot of the cursors. An empty queue answers 0 at once (R91). -/
def execGet (n : Inst) (s : State) : Answer :=
  let u := s.uart n
  match channelCheck s n .queued with
  | some e => raiseFor (.get n) e s
  | none =>
    if isEmpty u.rwr u.rrd then .next (respond 0#32 s)
    else .next (s.setMl (.getM2 n u.rrd))

/-- GET's M2: the byte is read before the slot is given back. -/
def getRead (n : Inst) (r : Nat) (s : State) : Answer :=
  match readSlot (s.params n).capRx (s.uart n).bufR r with
  | .error f => .fault f
  | .ok v => .next (s.setMl (.getM3 n r v))

/-- GET's M3: the read cursor is published, and GET responds with the byte. -/
def getPublish (n : Inst) (r : Nat) (v : Byte) (s : State) : Answer :=
  .next (respond (byteResponse v)
    (s.setUart n { s.uart n with rrd := nextSlot (s.params n).capRx r }))

/-! ## TXI (R94, R96) -/

/-- The last two lines of R94: TIE is cleared where the TX queue is empty and the policy is DISARM. -/
def disarmIfEmpty (policy : TxIdlePolicy) (u : Uart) : Uart :=
  match policy with
  | .disarm => if isEmpty u.twr u.trd then { u with tie := false } else u
  | .keepArmed => u

/-- The sending part of R94: the front byte goes to TDR, which clears TDRE, and the read cursor advances. -/
def txSend (C : Nat) (u : Uart) : Except Fault Uart :=
  match readSlot C u.bufT u.trd with
  | .error f => .error f
  | .ok b => .ok { u with tdr := some b, tdre := false, trd := nextSlot C u.trd }

/-- TXI, one step: send the front byte if there is one, then disarm over an empty queue (R94). -/
def execTxi (n : Inst) (s : State) : Answer :=
  let u := s.uart n
  if isEmpty u.twr u.trd then .next (s.setUart n (disarmIfEmpty s.cfg.txIdlePolicy u))
  else
    match txSend (s.params n).capTx u with
    | .error f => .fault f
    | .ok u' => .next (s.setUart n (disarmIfEmpty s.cfg.txIdlePolicy u'))

/-! ## RXI (R95, R98, R99) -/

/-- The arriving byte kept: into the slot at the write cursor, which then advances (R95). -/
def rxStore (C : Nat) (u : Uart) (v : Byte) : Except Fault Uart :=
  match writeSlot C u.bufR u.rwr v with
  | .error f => .error f
  | .ok m => .ok { u with bufR := m, rwr := nextSlot C u.rwr }

/-- RXI, one step: RDR is read exactly once, which clears RDRF; a full queue drops the newest byte and
counts it (R95, R98, R99). -/
def execRxi (n : Inst) (s : State) : Answer :=
  let u := s.uart n
  let C := (s.params n).capRx
  match readData u.rdr with
  | .error f => .fault f
  | .ok v =>
    let u1 := { u with rdrf := false }
    if isFull C u1.rwr u1.rrd then .next (s.setUart n { u1 with rxdrop := u1.rxdrop + 1#32 })
    else
      match rxStore C u1 v with
      | .error f => .fault f
      | .ok u2 => .next (s.setUart n u2)

end Sys2Proof.Machine
end

