-- ==== Sys2Proof/Machine/Divisor.lean ====
section
/-! DEFINITION. The Divisor Calculator (40_divisor.md): rateCalc, rateWrite and CALC. -/

namespace Sys2Proof.Machine

/-- floor(clk / (baud * 16)), exact (R76, R81). -/
def divisorOf (clk baud : Nat) : Nat := clk / (baud * 16)

/-- floor((clk * 32) / (baud * 16)) - d * 32, exact (R77, R81). -/
def fineOf (clk baud : Nat) : Nat := clk * 32 / (baud * 16) - divisorOf clk baud * 32

/-- rateCalc: the checks and their order, then the pair; reads and writes no state (R75 to R81). -/
def rateCalc (clk baud : Word) : Except FaultCode (BitVec 13 × BitVec 5) :=
  if clk = 0#32 ∨ baud = 0#32 then .error .cfgZero
  else
    let d := divisorOf clk.toNat baud.toNat
    if d > 8191 then .error .cfgOverflow
    else if d = 0 then .error .cfgUnderflow
    else .ok (BitVec.ofNat 13 d, BitVec.ofNat 5 (fineOf clk.toNat baud.toNat))

/-- rateWrite(i, d, f): the pair stored by read-modify-write (R83). -/
def rateWrite (u : Uart) (d : BitVec 13) (f : BitVec 5) : Uart :=
  { u with rate := rateMerge u.rate d f }

/-- CALC: the pair as the response, no state written (R85). -/
def execCalc (clk baud : Word) (s : State) : Answer :=
  match rateCalc clk baud with
  | .error e => raiseFor (.calcDiv clk baud) e s
  | .ok (d, f) => .next (respond (ratePair d f) s)

end Sys2Proof.Machine
end

