-- ==== Sys2Proof/Machine/Lifecycle.lean ====
section
/-! DEFINITION. Lifecycle and status (43_lifecycle.md): INIT, START, STAT. -/

namespace Sys2Proof.Machine

/-- What a successful INIT leaves of the instance: the bring-up call (PRDY), the rate fields, BAUD, the
four cursors and RXDROP at 0, CONFIGURED; no slot, no control bit, no status flag (R109, R110). -/
def configure (u : Uart) (baud : Word) (d : BitVec 13) (f : BitVec 5) : Uart :=
  { rateWrite { u with prdy := true } d f with
    baud := baud, twr := 0, trd := 0, rwr := 0, rrd := 0, rxdrop := 0#32, life := .configured }

/-- INIT: UNINIT to CONFIGURED, once (R109). -/
def execInit (n : Inst) (baud : Word) (s : State) : Answer :=
  let u := s.uart n
  if u.life ≠ .uninit then raiseFor (.init n baud) .badState s
  else
    match rateCalc (s.params n).moduleClockHz baud with
    | .error e => raiseFor (.init n baud) e s
    | .ok (d, f) => .next (respond (ratePair d f) (s.setUart n (configure u baud d f)))

/-- What a successful START leaves of the instance: TE and RE, and in QUEUED mode the two interrupt
sources (R111). -/
def enable (mode : ChanMode) (u : Uart) : Uart :=
  match mode with
  | .queued => { u with te := true, re := true, rie := true, tie := true, life := .running }
  | .polled => { u with te := true, re := true, life := .running }

/-- START: CONFIGURED to RUNNING (R111). -/
def execStart (n : Inst) (s : State) : Answer :=
  let u := s.uart n
  if u.life ≠ .configured then raiseFor (.start n) .badState s
  else if u.prdy = false then raiseFor (.start n) .badState s
  else .next (respond 0#32 (s.setUart n (enable (s.params n).mode u)))

/-- STAT: one register image, read in one step, nothing written (R113). -/
def execStat (n : Inst) (sel : Byte) (s : State) : Answer :=
  match image s n sel with
  | some v => .next (respond v s)
  | none => raiseFor (.stat n sel) .illegalOp s

end Sys2Proof.Machine
end

