-- ==== Sys2Proof/Machine/Polled.lean ====
section
/-! DEFINITION. The polled API (44_polled.md): BPUT and BGET. The guard of a `wait until` is in the
scheduler (R18: the step is enabled only when it holds). -/

namespace Sys2Proof.Machine

/-- BPUT's M1: the checks (R114). -/
def execBput (n : Inst) (b : Byte) (s : State) : Answer :=
  match channelCheck s n .polled with
  | some e => raiseFor (.bput n b) e s
  | none => .next (s.setMl (.bputM2 n b))

/-- BPUT's M2, once TDRE = 1: TDR is written, which clears TDRE, and BPUT responds 0 (R114). -/
def bputWrite (n : Inst) (b : Byte) (s : State) : Answer :=
  .next (respond 0#32 (s.setUart n { s.uart n with tdr := some b, tdre := false }))

/-- BGET's M1: the checks (R115). -/
def execBget (n : Inst) (s : State) : Answer :=
  match channelCheck s n .polled with
  | some e => raiseFor (.bget n) e s
  | none => .next (s.setMl (.bgetM2 n))

/-- BGET's M2, once RDRF = 1: RDR is read, which clears RDRF, and BGET responds with the byte (R115). -/
def bgetRead (n : Inst) (s : State) : Answer :=
  match readData (s.uart n).rdr with
  | .error f => .fault f
  | .ok v => .next (respond (byteResponse v) (s.setUart n { s.uart n with rdrf := false }))

end Sys2Proof.Machine
end

