-- ==== Sys2Proof/Machine/Dispatch.lean ====
section
/-! DEFINITION. What each instruction does as one step: the whole of CALC, INIT, START, STAT, TXI and
RXI, and M1 of PUT, GET, BPUT and BGET (log entry 9). -/

namespace Sys2Proof.Machine

def exec (i : Instr) (s : State) : Host.Outcome State Fault Refusal :=
  match i with
  | .calcDiv clk baud => Sys2Proof.Machine.execCalc clk baud s
  | .init n baud => Sys2Proof.Machine.execInit n baud s
  | .start n => Sys2Proof.Machine.execStart n s
  | .put n b => Sys2Proof.Machine.execPut n b s
  | .get n => Sys2Proof.Machine.execGet n s
  | .bput n b => Sys2Proof.Machine.execBput n b s
  | .bget n => Sys2Proof.Machine.execBget n s
  | .stat n sel => Sys2Proof.Machine.execStat n sel s
  | .txi n => Sys2Proof.Machine.execTxi n s
  | .rxi n => Sys2Proof.Machine.execRxi n s

end Sys2Proof.Machine
end

