-- ==== Sys2Proof/Machine/Line.lean ====
section
/-! DEFINITION. The Line agent (45_line.md): the transmitter takes a byte, the receiver takes a byte. -/

namespace Sys2Proof.Machine

/-- LTX's guard: TE = 1 and TDRE = 0 (R117). -/
def ltxReady (u : Uart) : Bool := u.te && !u.tdre

/-- LTX: TDR goes to the wire and is empty again; TDR keeps its value (R117). -/
def lineTransmit (n : Inst) (s : State) : Answer :=
  let u := s.uart n
  match readData u.tdr with
  | .error f => .fault f
  | .ok b => .next (s.setUart n { u with wireOut := u.wireOut ++ [b], tdre := true })

/-- LRX's guard: WIRE_IN is not empty (R118). -/
def lrxReady (u : Uart) : Bool := !u.wireIn.isEmpty

/-- The byte `v` arrives at the receiver: lost while RE = 0, into RDR while RDRF = 0, else an overrun
that sets OVR and keeps the older byte (R118). -/
def receive (v : Byte) (u : Uart) : Uart :=
  if u.re = false then u
  else if u.rdrf = false then { u with rdr := some v, rdrf := true }
  else { u with ovr := true }

/-- LRX: the next byte leaves WIRE_IN and arrives (R118). -/
def lineReceive (n : Inst) (s : State) : Answer :=
  let u := s.uart n
  match u.wireIn with
  | [] => .next s
  | v :: rest => .next (s.setUart n (receive v { u with wireIn := rest }))

end Sys2Proof.Machine
end

