-- ==== Sys2Proof/Machine/Schedule.lean ====
section
/-! DEFINITION. Who has a step and who takes it (20_memory.md section 2, 60_exceptions.md section 3),
and the later steps of a request in progress. -/

namespace Sys2Proof.Machine

/-- The mainline's next step is there: a request in progress whose guard holds, or a next request
offered (R53 a and b). -/
def mainReady (s : State) : Bool :=
  match s.ml with
  | .idle => !s.program.isEmpty
  | .putM2 _ _ _ => true
  | .putM3 _ _ _ => true
  | .putM4 _ _ _ => true
  | .getM2 _ _ => true
  | .getM3 _ _ _ => true
  | .bputM2 n _ => (s.uart n).tdre
  | .bgetM2 n => (s.uart n).rdrf

/-- Which moves have a step: none while FAULT is valid (R51), an interrupt step where a source is
pending (R52), the mainline only while no line is 1 (R53), a Line step where its guard holds (R55). -/
def enabled (s : State) (m : Move) : Bool :=
  !s.fault.valid &&
  match m with
  | .main => !anyPending s && mainReady s
  | .irq n => pending (s.uart n)
  | .ltx n => ltxReady (s.uart n)
  | .lrx n => lrxReady (s.uart n)

/-- Every move there is. -/
def allMoves : List Move :=
  [.main, .irq .i0, .irq .i1, .ltx .i0, .ltx .i1, .lrx .i0, .lrx .i1]

/-- The moves that have a step. -/
def enabledMoves (s : State) : List Move := allMoves.filter (enabled s)

/-- One of several moves that have a step (R56): the agenda's next entry if it names one of them, else
the free choice among them (log entry 2). -/
def pick (s : State) (m : Move) (ms : List Move) : Move :=
  match s.agenda with
  | a :: _ =>
    if a ∈ m :: ms then a
    else (m :: ms).getD (Config.freeChoice s.tick % (m :: ms).length) m
  | [] => (m :: ms).getD (Config.freeChoice s.tick % (m :: ms).length) m

/-- The move that is taken next: none where no agent has a step, the only one where one has, else a
choice (R56). -/
def choose (s : State) : Option Move :=
  match enabledMoves s with
  | [] => none
  | [m] => some m
  | m :: m' :: ms => some (pick s m (m' :: ms))

/-- What each step does to the model's own schedule: one agenda entry is read and the step is counted. -/
def advance (s : State) : State := { s with agenda := s.agenda.tail, tick := s.tick + 1 }

/-- The entry point an interrupt step of instance `n` runs: RXI if RXIRQ, otherwise TXI (R128 b). -/
def arbitrate (s : State) (n : Inst) : Instr :=
  if rxIrq (s.uart n) then .rxi n else .txi n

/-- Why no agent has a step: faulted, final or stuck (R51, R58). -/
def stopReason (s : State) : Fault :=
  if s.fault.valid then .halted
  else if s.ml = .idle then .ended
  else .stuck

/-- The step Mk that ML names, k > 1 (R37, R53 a). An idle mainline has none. -/
def resume (s : State) : Answer :=
  match s.ml with
  | .idle => .fault .stuck
  | .putM2 n w b => putWrite n w b s
  | .putM3 n w b => putPublish n w b s
  | .putM4 n _ _ => putArm n s
  | .getM2 n r => getRead n r s
  | .getM3 n r v => getPublish n r v s
  | .bputM2 n b => bputWrite n b s
  | .bgetM2 n => bgetRead n s

/-- The next request taken from the program (R53 b). -/
def takeRequest (rest : List Request) (s : State) : State := { s with program := rest }

/-- A request that does not decode: ILLEGAL_OP with the word as it was issued (R69, R70, R122). -/
def rejectRequest (r : Request) (s : State) : State := raiseFault r.opw .illegalOp s

/-! ## Placing one instruction where the next step runs it (log entry 3, log entry 17) -/

/-- Nothing pending on an instance: an enabled source whose flag is set is masked. -/
def quiet (u : Uart) : Uart :=
  { u with tie := u.tie && !u.tdre, rie := u.rie && !u.rdrf }

/-- The agents made to let move `m` go next: the fault record not valid, `m` first in the agenda. -/
def letGo (m : Move) (s : State) : State :=
  { s with fault := { s.fault with valid := false }, agenda := m :: s.agenda }

/-- A request placed first in the mainline program, with the mainline idle and no line pending. -/
def placeRequest (r : Request) (s : State) : State :=
  letGo .main
    { s with u0 := quiet s.u0, u1 := quiet s.u1, ml := .idle, program := r :: s.program }

/-- The TX source of instance `n` pending and its RX source not, so that the arbiter runs TXI (R126, R128). -/
def placeTxi (n : Inst) (s : State) : State :=
  letGo (.irq n) (s.setUart n
    { s.uart n with tie := true, tdre := true, rie := (s.uart n).rie && !(s.uart n).rdrf })

/-- The RX source of instance `n` pending with a byte in RDR, so that the arbiter runs RXI (R126, R128). -/
def placeRxi (n : Inst) (s : State) : State :=
  letGo (.irq n) (s.setUart n
    { s.uart n with rie := true, rdrf := true, rdr := some ((s.uart n).rdr.getD 0#8) })

/-- The request's instruction placed where the next step runs it: an entry point by its source being
pending, anything else as the next request offered. -/
def place (r : Request) (s : State) : State :=
  match decode r with
  | .ok (.txi n) => placeTxi n s
  | .ok (.rxi n) => placeRxi n s
  | _ => placeRequest r s

end Sys2Proof.Machine
end

