-- ==== Sys2Proof/Machine/Agents.lean ====
section
/-! DEFINITION. One step of the agent that was chosen. -/

namespace Sys2Proof.Machine

/-- A mainline step: M1 of the next request offered, or the next step of the one in progress (R53, R69). -/
def runMain (s : State) : Answer :=
  match s.ml, s.program with
  | .idle, [] => .fault .ended
  | .idle, r :: rest =>
    match decodeMainline r with
    | .error _ => .next (rejectRequest r (takeRequest rest s))
    | .ok i => exec i (takeRequest rest s)
  | _, _ => resume s

/-- The step of the chosen move: a mainline step, the entry point the arbiter runs (R128), or a Line step. -/
def runMove (m : Move) (s : State) : Answer :=
  match m with
  | .main => runMain s
  | .irq n => exec (arbitrate s n) s
  | .ltx n => lineTransmit n s
  | .lrx n => lineReceive n s

/-- One step of the machine (R50 to R56): refused under a configuration the core does not admit (R7),
stopped where no agent has a step (R58). -/
def stepMachine (s : State) : Answer :=
  if configOk s.cfg then
    match choose s with
    | none => .fault (stopReason s)
    | some m => runMove m (advance s)
  else .refused .capacity

end Sys2Proof.Machine
end

