-- ==== Sys2Proof/Machine/Step.lean ====
section
/-! DEFINITION. The machine's step, and the placing of one instruction where the next step runs it. -/

namespace Sys2Proof.Machine

/-- One step of the machine. -/
def step (s : State) : Host.Outcome State Fault Refusal := stepMachine s

/-- `s` with the instruction of a table word placed where the next step runs it (log entries 3, 17). -/
def State.withFetchWord (s : State) (nbits w : Nat) : State := place (requestOfTableWord nbits w) s

end Sys2Proof.Machine
end

