-- ==== Sys2Proof/Machine/Pseudo.lean ====
section
/-! DEFINITION. The pseudo-operations of R73: the requests a program issues for the source's byte-stream
interface. They stand outside the step: the program that issues requests is outside the core (R158). -/

namespace Sys2Proof.Machine

/-- The source's operations that expand to a fixed list of requests (R73). -/
inductive Pseudo where
  /-- `init(baud)` on instance n. -/
  | initBaud (n : Inst) (baud : Word)
  /-- `putByte(b)`, `tryEnqueue(b)`. -/
  | putByte (n : Inst) (b : Byte)
  /-- `getByte()`, `tryDequeue()`. -/
  | getByte (n : Inst)
  /-- `blockingPutByte(b)`. -/
  | blockingPutByte (n : Inst) (b : Byte)
  /-- `blockingGetByte()`. -/
  | blockingGetByte (n : Inst)
  deriving DecidableEq, Repr

/-- The expansion of a pseudo-operation (R73). -/
def expandPseudo : Pseudo → List Instr
  | .initBaud n baud => [.init n baud, .start n]
  | .putByte n b => [.put n b]
  | .getByte n => [.get n]
  | .blockingPutByte n b => [.bput n b]
  | .blockingGetByte n => [.bget n]

/-- The requests of an expansion, as the program offers them. -/
def pseudoRequests (p : Pseudo) : List Request := (expandPseudo p).map encode

/-- PUT's response says the byte was accepted (R68). -/
def accepted (resp : Word) : Bool := resp.getLsbD 0

/-- `putString(s)` on instance n after the responses `rs` to its requests so far, oldest first: the next
request, none once s is used up or at the first rejection (R73). -/
def putStringNext (n : Inst) : List Byte → List Word → Option Instr
  | [], _ => none
  | b :: _, [] => some (.put n b)
  | _ :: bs, r :: rs => if accepted r then putStringNext n bs rs else none

/-- The result of `putString`: the number of responses with bit 0 set (R73). -/
def putStringResult (rs : List Word) : Nat := (rs.filter accepted).length

end Sys2Proof.Machine
end

