-- ==== Sys2Proof/Safety.lean ====
section
/-! DEFINITION. The terms claims are stated in: the bytes a queue holds, the byte streams, the invariant
of the reachable states, the end of a run, the storm, and the illegal words of R70 as a predicate. -/

namespace Sys2Proof.Machine

/-! ## The contents of a queue -/

/-- The `k` slots from slot `r` on, in the order they are read (R33, R57). -/
def slotsFrom (C : Nat) (m : Memory) (r : Nat) : Nat → List (Option Byte)
  | 0 => []
  | k + 1 => m.read r :: slotsFrom C m (nextSlot C r) k

/-- The TX queue of an instance, front first (R30, R33). -/
def txQueue (C : Nat) (u : Uart) : List (Option Byte) :=
  slotsFrom C u.bufT u.trd (occupancy C u.twr u.trd)

/-- The RX queue of an instance, front first (R31, R33). -/
def rxQueue (C : Nat) (u : Uart) : List (Option Byte) :=
  slotsFrom C u.bufR u.rrd (occupancy C u.rwr u.rrd)

/-- The byte waiting for the transmitter, if any (R26). -/
def txWaiting (u : Uart) : List (Option Byte) := if u.tdre then [] else [u.tdr]

/-- Everything an instance has on the way out, oldest first: the wire, TDR, the TX queue (R101). -/
def txStream (C : Nat) (u : Uart) : List (Option Byte) :=
  u.wireOut.map some ++ txWaiting u ++ txQueue C u

/-- The bytes a step adds to what instance `n` has on the way out: the byte a PUT's M3 publishes and the
byte a BPUT's M2 writes (R86, R101, R114). -/
def committed (m : Move) (ml : Mainline) (n : Inst) : List (Option Byte) :=
  match m, ml with
  | .main, .putM3 k _ b => if k = n then [some b] else []
  | .main, .bputM2 k b => if k = n then [some b] else []
  | _, _ => []

/-! ## The invariant of the reachable states -/

/-- All four cursors at 0. -/
def CursorsZero (u : Uart) : Prop := u.twr = 0 ∧ u.trd = 0 ∧ u.rwr = 0 ∧ u.rrd = 0

/-- Transmitter, receiver and both sources disabled, and the flags as after reset. -/
def Disabled (u : Uart) : Prop :=
  u.te = false ∧ u.re = false ∧ u.rie = false ∧ u.tie = false ∧ u.tdre = true ∧ u.rdrf = false

/-- What LIFE says of the control bits, the flags and the cursors (R109 to R112, R116). -/
def LifeInv (mode : ChanMode) (u : Uart) : Prop :=
  match u.life with
  | .uninit => u.prdy = false ∧ Disabled u ∧ CursorsZero u
  | .configured => u.prdy = true ∧ Disabled u ∧ CursorsZero u
  | .running => u.prdy = true ∧ u.te = true ∧ u.re = true ∧ u.rie = decide (mode = .queued) ∧
      (mode = .polled → u.tie = false ∧ CursorsZero u)

/-- The cursors lie in 0 .. C-1 (R30, R31, R100). -/
def CursorInv (c : InstConfig) (u : Uart) : Prop :=
  u.twr < c.capTx ∧ u.trd < c.capTx ∧ u.rwr < c.capRx ∧ u.rrd < c.capRx

/-- The queue storages are canonical and hold only slots of the queue (R47). -/
def StoreInv (c : InstConfig) (u : Uart) : Prop :=
  u.bufT.wf = true ∧ u.bufT.within c.capTx = true ∧ u.bufR.wf = true ∧ u.bufR.within c.capRx = true

/-- Every slot between the read and the write cursor was written (R102). -/
def WrittenInv (c : InstConfig) (u : Uart) : Prop :=
  (∀ x ∈ txQueue c.capTx u, x.isSome = true) ∧ (∀ x ∈ rxQueue c.capRx u, x.isSome = true)

/-- A data register the core would read holds a byte (R28, R29). -/
def DataInv (u : Uart) : Prop :=
  (u.tdre = false → u.tdr.isSome = true) ∧ (u.rdrf = true → u.rdr.isSome = true)

/-- No lost wake-up: under DISARM a running queued instance with bytes to send is armed, or a PUT on it
is about to arm it (R103). -/
def WakeInv (policy : TxIdlePolicy) (c : InstConfig) (ml : Mainline) (n : Inst) (u : Uart) : Prop :=
  policy = .disarm → u.life = .running → c.mode = .queued → u.trd ≠ u.twr →
    u.tie = true ∨ ∃ w b, ml = .putM4 n w b

/-- A request in progress on `n` runs in RUNNING and in the mode it needs (R86, R90, R114, R115). -/
def InMode (s : State) (n : Inst) (mode : ChanMode) : Prop :=
  (s.uart n).life = .running ∧ (s.params n).mode = mode

/-- What the mainline's position says of the state: the locals are still true of the cursor they were
read from, and the free or the filled slot is still free or filled (R89, R92). -/
def MlInv (s : State) : Prop :=
  match s.ml with
  | .idle => True
  | .putM2 n w _ => InMode s n .queued ∧ w = (s.uart n).twr ∧
      nextSlot (s.params n).capTx w ≠ (s.uart n).trd
  | .putM3 n w b => InMode s n .queued ∧ w = (s.uart n).twr ∧
      nextSlot (s.params n).capTx w ≠ (s.uart n).trd ∧ (s.uart n).bufT.read w = some b
  | .putM4 n _ _ => InMode s n .queued
  | .getM2 n r => InMode s n .queued ∧ r = (s.uart n).rrd ∧ r ≠ (s.uart n).rwr
  | .getM3 n r v => InMode s n .queued ∧ r = (s.uart n).rrd ∧ r ≠ (s.uart n).rwr ∧
      (s.uart n).bufR.read r = some v
  | .bputM2 n _ => InMode s n .polled
  | .bgetM2 n => InMode s n .polled

/-- The fault record is clear or names one of the six faults and the instance of its word (R35, R121, R122). -/
def FaultInv (f : FaultRecord) : Prop :=
  f = FaultRecord.clear ∨
    (f.valid = true ∧ 1 ≤ f.code.toNat ∧ f.code.toNat ≤ 6 ∧ f.inst = instField f.opw)

/-- What holds of one instance. -/
def UartInv (s : State) (n : Inst) : Prop :=
  LifeInv (s.params n).mode (s.uart n) ∧ CursorInv (s.params n) (s.uart n) ∧
  StoreInv (s.params n) (s.uart n) ∧ WrittenInv (s.params n) (s.uart n) ∧ DataInv (s.uart n) ∧
  otherOf (s.uart n).rate = (s.params n).rateOther ∧
  WakeInv s.cfg.txIdlePolicy (s.params n) s.ml n (s.uart n)

/-- The invariant of the reachable states. -/
def MachineInv (s : State) : Prop :=
  configOk s.cfg = true ∧ (∀ n, UartInv s n) ∧ MlInv s ∧ FaultInv s.fault

/-- The rate fields are those of the baud rate INIT was given, and 0 before (R23, R24, R109). -/
def RateInv (s : State) : Prop :=
  ∀ n, match (s.uart n).life with
    | .uninit => sbrOf (s.uart n).rate = 0#13 ∧ brfaOf (s.uart n).rate = 0#5 ∧ (s.uart n).baud = 0#32
    | _ => rateCalc (s.params n).moduleClockHz (s.uart n).baud =
        .ok (sbrOf (s.uart n).rate, brfaOf (s.uart n).rate)

/-! ## The end of a run (R58) -/

/-- R58's final state, in its own words. -/
def IsFinal (s : State) : Prop :=
  s.fault.valid = false ∧ s.ml = .idle ∧ s.program = [] ∧
  ∀ n, txIrq (s.uart n) = false ∧ rxIrq (s.uart n) = false ∧
    ((s.uart n).te = false ∨ (s.uart n).tdre = true) ∧ (s.uart n).wireIn = []

/-- The model faults of R18 and R47, which no run reaches (R102). -/
def IsModelFault : Fault → Prop
  | .unwrittenSlot => True
  | .unwrittenDataRegister => True
  | .noSuchSlot => True
  | .halted => False
  | .ended => False
  | .stuck => False

/-! ## The storm (R97) -/

/-- KEEP_ARMED, the TX source of `n` armed over an empty queue and an empty data register (R97). -/
def Storm (n : Inst) (s : State) : Prop :=
  s.cfg.txIdlePolicy = .keepArmed ∧ s.fault.valid = false ∧
  (s.uart n).tie = true ∧ (s.uart n).tdre = true ∧ (s.uart n).trd = (s.uart n).twr

/-! ## Words and outcomes -/

/-- The illegal words of a mainline request, clauses (a) to (f) of R70. -/
def IllegalWord (w : Opw) : Prop :=
  ((opField w).toNat = 0 ∨ 0xB ≤ (opField w).toNat) ∨
  rsvdField w ≠ 0#3 ∨
  ((opField w).toNat ∈ [1, 2, 3, 5, 7] ∧ dataField w ≠ 0#8) ∨
  ((opField w).toNat = 1 ∧ instField w ≠ 0#1) ∨
  ((opField w).toNat = 8 ∧ 6 < (dataField w).toNat) ∨
  ((opField w).toNat = 9 ∨ (opField w).toNat = 10)

/-- The instance a request in progress addresses. -/
def Mainline.inst? : Mainline → Option Inst
  | .idle => none
  | .putM2 n _ _ => some n
  | .putM3 n _ _ => some n
  | .putM4 n _ _ => some n
  | .getM2 n _ => some n
  | .getM3 n _ _ => some n
  | .bputM2 n _ => some n
  | .bgetM2 n => some n

/-- The next state of an outcome changed by `f`, faults and refusals as they are. -/
def mapNext (f : State → State) : Answer → Answer
  | .next s => .next (f s)
  | .fault r => .fault r
  | .refused r => .refused r

end Sys2Proof.Machine
end

