-- ==== Sys2Proof/Certificates/Slice0/Obligations.lean ====
section
/-! DEFINITION. The statements for the provers, each with the rules of spec/ it comes from. -/

open Sys2Proof Sys2Proof.Machine

/-! ## Encoding (30_encoding.md) -/

/-- R64, R66, R67, R72: decoding an encoded well-formed instruction gives it back, with every operand at
every value; offered by the mainline, the entry points are rejected and everything else is accepted (R70 f). -/
def Obligations.DecodeOfEncode : Prop :=
  ∀ i : Instr, i.wellFormed = true →
    decode (encode i) = .ok i ∧
    decodeMainline (encode i) = if i.isEntryPoint then .error .entryPoint else .ok i

/-- R67, R71: a word has one meaning: an instruction that decodes is well-formed and its encoding has the
word it was decoded from. -/
def Obligations.EncodeOfDecode : Prop :=
  ∀ (r : Request) (i : Instr), decode r = .ok i → i.wellFormed = true ∧ (encode i).opw = r.opw

/-- R71: every word is either one of the ten rows of R67, and then exactly one, or illegal under R70. -/
def Obligations.EveryWordIsOneRowOrIllegal : Prop :=
  ∀ r : Request,
    (∃ i, decode r = .ok i ∧ opcodeTable.filter (fun row => row.selects r.opw) = [i.row]) ∨
    ((∃ e, decode r = .error e) ∧ IllegalWord r.opw)

/-- R70: a mainline request raises ILLEGAL_OP, with the word as it was issued, where one of the clauses
(a) to (f) holds; where none holds, the step is the meaning of the instruction the request decodes to, and
no fault it raises is ILLEGAL_OP; operand words an operation does not take are never read. That a request is
the head of a list the step takes it from is the model's form (log entry 3), and that the step reads one
agenda entry and is counted is the model's own (log entry 2). -/
def Obligations.IllegalRequestsRaise : Prop :=
  (∀ (s : State) (r : Request) (rest : List Request), configOk s.cfg = true →
    choose s = some .main → s.ml = .idle → s.program = r :: rest →
    (IllegalWord r.opw → step s = .next { advance s with
      program := rest, fault := ⟨true, 0x01#8, instField r.opw, r.opw⟩ }) ∧
    (¬ IllegalWord r.opw → (∃ i, decodeMainline r = .ok i ∧
        step s = exec i (takeRequest rest (advance s))) ∧
      ∀ t, step s = .next t → t.fault.valid = true → t.fault.code ≠ 0x01#8)) ∧
  (∀ (w : Opw) (a b a' b' : Word), (opField w).toNat ≠ 1 → (opField w).toNat ≠ 2 →
    decode ⟨w, a, b⟩ = decode ⟨w, a', b'⟩) ∧
  (∀ (w : Opw) (a b b' : Word), (opField w).toNat = 2 → decode ⟨w, a, b⟩ = decode ⟨w, a, b'⟩)

/-- R65: CALC takes OPA and OPB, INIT takes OPA, every other operation takes none; each operand is used as
it stands. -/
def Obligations.OperandsUsedAsTheyStand : Prop :=
  (∀ a b : Word, decode ⟨0x1000#16, a, b⟩ = .ok (.calcDiv a b)) ∧
  (∀ a b : Word, decode ⟨0x2000#16, a, b⟩ = .ok (.init .i0 a) ∧
    decode ⟨0x2100#16, a, b⟩ = .ok (.init .i1 a)) ∧
  (∀ (w : Opw) (a b a' b' : Word), (opField w).toNat ≠ 1 → (opField w).toNat ≠ 2 →
    decode ⟨w, a, b⟩ = decode ⟨w, a', b'⟩)

/-- R67, R72 and the decode vectors L2.9 of 95_test_vectors.md, on words written out. -/
def Obligations.WrittenWordsDecode : Prop :=
  decode ⟨0x1000#16, 20485760#32, 9600#32⟩ = .ok (.calcDiv 20485760#32 9600#32) ∧
  decode ⟨0x2100#16, 115200#32, 0#32⟩ = .ok (.init .i1 115200#32) ∧
  decode ⟨0x3000#16, 0#32, 0#32⟩ = .ok (.start .i0) ∧
  decode ⟨0x4141#16, 0#32, 0#32⟩ = .ok (.put .i1 0x41#8) ∧
  decode ⟨0x5100#16, 0#32, 0#32⟩ = .ok (.get .i1) ∧
  decode ⟨0x6155#16, 0#32, 0#32⟩ = .ok (.bput .i1 0x55#8) ∧
  decode ⟨0x7100#16, 0#32, 0#32⟩ = .ok (.bget .i1) ∧
  decode ⟨0x8006#16, 0#32, 0#32⟩ = .ok (.stat .i0 6#8) ∧
  decode ⟨0x9000#16, 0#32, 0#32⟩ = .ok (.txi .i0) ∧
  decode ⟨0xA100#16, 0#32, 0#32⟩ = .ok (.rxi .i1) ∧
  decode ⟨0x1100#16, 0#32, 0#32⟩ = .error .calcInstance ∧
  decode ⟨0x1001#16, 0#32, 0#32⟩ = .error .nonzeroData ∧
  decode ⟨0x2200#16, 0#32, 0#32⟩ = .error .reservedBits ∧
  decode ⟨0x8007#16, 0#32, 0#32⟩ = .error .reservedSelector ∧
  decode ⟨0x0000#16, 0#32, 0#32⟩ = .error .reservedOp ∧
  decode ⟨0xB000#16, 0#32, 0#32⟩ = .error .reservedOp

/-- R73: `putString` offers PUT of the bytes of the string in order and stops at the first rejection: after
`k` accepted bytes it offers the next one, after a rejection nothing, and its result is the number accepted. -/
def Obligations.PutStringStopsAtRejection : Prop :=
  ∀ (n : Inst) (s : List Byte) (rs : List Word),
    ((∀ r ∈ rs, accepted r = true) →
      putStringNext n s rs = (s[rs.length]?).map (fun b => .put n b) ∧
      putStringResult rs = rs.length) ∧
    (∀ r, (∀ x ∈ rs, accepted x = true) → accepted r = false →
      putStringNext n s (rs ++ [r]) = none ∧ putStringResult (rs ++ [r]) = rs.length)

/-! ## The Divisor Calculator (40_divisor.md) -/

/-- R78, R79, R80: when rateCalc faults, with which fault and code; 8191 is accepted. -/
def Obligations.RateCalcFaultConditions : Prop :=
  (∀ clk baud : Word, clk = 0#32 ∨ baud = 0#32 → rateCalc clk baud = .error .cfgZero) ∧
  (∀ clk baud : Word, clk ≠ 0#32 → baud ≠ 0#32 →
    (8191 < clk.toNat / (baud.toNat * 16) ↔ 131072 * baud.toNat ≤ clk.toNat) ∧
    (131072 * baud.toNat ≤ clk.toNat → rateCalc clk baud = .error .cfgOverflow) ∧
    (clk.toNat / (baud.toNat * 16) = 0 ↔ clk.toNat < 16 * baud.toNat) ∧
    (clk.toNat < 16 * baud.toNat → rateCalc clk baud = .error .cfgUnderflow)) ∧
  (∃ f, rateCalc 131071#32 1#32 = .ok (8191#13, f)) ∧
  faultNumber .cfgZero = 0x02#8 ∧ faultNumber .cfgOverflow = 0x03#8 ∧ faultNumber .cfgUnderflow = 0x04#8

/-- R76, R77: the divisor and the fine-adjust rateCalc returns, without truncation, and the range 0 .. 31
of the fine-adjust for every clk and every baud above 0. -/
def Obligations.RateCalcDivisorAndFineAdjust : Prop :=
  (∀ (clk baud : Word) (d : BitVec 13) (f : BitVec 5), rateCalc clk baud = .ok (d, f) →
    d.toNat = clk.toNat / (baud.toNat * 16) ∧
    f.toNat = clk.toNat * 32 / (baud.toNat * 16) - d.toNat * 32 ∧
    f.toNat = 2 * clk.toNat / baud.toNat - 32 * d.toNat) ∧
  (∀ clk baud : Word, baud ≠ 0#32 → 16 * baud.toNat ≤ clk.toNat →
    (clk.toNat / (baud.toNat * 16) ≤ 8191 → ∃ p, rateCalc clk baud = .ok p) ∧
    (8191 < clk.toNat / (baud.toNat * 16) → rateCalc clk baud = .error .cfgOverflow)) ∧
  (∀ clk baud : Nat, 0 < baud →
    fineOf clk baud ≤ 31 ∧ 32 * divisorOf clk baud + fineOf clk baud = 2 * clk / baud ∧
    divisorOf clk baud * 32 ≤ clk * 32 / (baud * 16))

/-- R82: the generated rate 2 clk / (32 d + f) is never below the target and exceeds it by less than a
factor 1 + 1/(32 d + f), with 32 d + f at least 32. -/
def Obligations.GeneratedRateBound : Prop :=
  ∀ (clk baud : Word) (d : BitVec 13) (f : BitVec 5), rateCalc clk baud = .ok (d, f) →
    32 ≤ 32 * d.toNat + f.toNat ∧
    baud.toNat * (32 * d.toNat + f.toNat) ≤ 2 * clk.toNat ∧
    2 * clk.toNat < baud.toNat * (32 * d.toNat + f.toNat + 1)

/-- R24, R83, R84: rateWrite sets SBR and BRFA and keeps the 14 unrelated bits, and changes nothing else of
the instance. -/
def Obligations.RateWriteKeepsUnrelatedBits : Prop :=
  ∀ (u : Uart) (d : BitVec 13) (f : BitVec 5),
    sbrOf (rateWrite u d f).rate = d ∧ brfaOf (rateWrite u d f).rate = f ∧
    otherOf (rateWrite u d f).rate = otherOf u.rate ∧
    rateWrite u d f = { u with rate := (rateWrite u d f).rate }

/-- R85, R68: CALC responds with the pair of an achievable clock and baud, in any state, and changes
nothing but the mainline's position and the responses. -/
def Obligations.CalcRespondsWithPair : Prop :=
  ∀ (s : State) (clk baud : Word), baud ≠ 0#32 → 16 * baud.toNat ≤ clk.toNat →
    clk.toNat < 131072 * baud.toNat →
    ∃ v : Word, (sbrOf v).toNat = clk.toNat / (baud.toNat * 16) ∧
      (brfaOf v).toNat = 2 * clk.toNat / baud.toNat - 32 * (clk.toNat / (baud.toNat * 16)) ∧
      otherOf v = 0#14 ∧
      exec (.calcDiv clk baud) s = .next { s with ml := .idle, resps := s.resps ++ [v] }

/-- R85, R122, R124: CALC's faults, in the order of R75, in any state that has no fault yet. -/
def Obligations.CalcFaultsInOrder : Prop :=
  ∀ (s : State) (clk baud : Word), s.fault.valid = false →
    (clk = 0#32 ∨ baud = 0#32 → exec (.calcDiv clk baud) s =
      .next { s with fault := ⟨true, 0x02#8, 0#1, 0x1000#16⟩ }) ∧
    (clk ≠ 0#32 → baud ≠ 0#32 → 131072 * baud.toNat ≤ clk.toNat → exec (.calcDiv clk baud) s =
      .next { s with fault := ⟨true, 0x03#8, 0#1, 0x1000#16⟩ }) ∧
    (clk ≠ 0#32 → baud ≠ 0#32 → clk.toNat < 16 * baud.toNat → exec (.calcDiv clk baud) s =
      .next { s with fault := ⟨true, 0x04#8, 0#1, 0x1000#16⟩ })

/-! ## Lifecycle and status (43_lifecycle.md) -/

/-- R109, R110: INIT on an UNINIT instance with an achievable baud completes, with every register it writes
and nothing else of the machine changed: no slot, no control bit, no flag, not the other instance. -/
def Obligations.InitConfigures : Prop :=
  ∀ (s : State) (n : Inst) (baud : Word) (d : BitVec 13) (f : BitVec 5),
    (s.uart n).life = .uninit → rateCalc (s.params n).moduleClockHz baud = .ok (d, f) →
    ∃ rate v : Word, sbrOf rate = d ∧ brfaOf rate = f ∧ otherOf rate = otherOf (s.uart n).rate ∧
      sbrOf v = d ∧ brfaOf v = f ∧ otherOf v = 0#14 ∧
      exec (.init n baud) s = .next { s.setUart n { s.uart n with
          prdy := true, rate := rate, baud := baud, twr := 0, trd := 0, rwr := 0, rrd := 0,
          rxdrop := 0#32, life := .configured } with
        ml := .idle, resps := s.resps ++ [v] }

/-- R109, R108, R124: INIT faults with BAD_STATE whatever the baud where the instance is not UNINIT, else
with rateCalc's fault; nothing else is written. -/
def Obligations.InitFaultsInOrder : Prop :=
  ∀ (s : State) (n : Inst) (baud : Word), s.fault.valid = false →
    ((s.uart n).life ≠ .uninit → exec (.init n baud) s = .next { s with
      fault := ⟨true, 0x05#8, instField (0x2000#16 ||| instBits n), 0x2000#16 ||| instBits n⟩ }) ∧
    (∀ e, (s.uart n).life = .uninit → rateCalc (s.params n).moduleClockHz baud = .error e →
      exec (.init n baud) s = .next { s with
        fault := ⟨true, faultNumber e, instField (0x2000#16 ||| instBits n), 0x2000#16 ||| instBits n⟩ })

/-- R111: START on a CONFIGURED instance with PRDY completes: TE and RE, in QUEUED mode RIE and TIE, LIFE;
the sources are as before in POLLED mode; otherwise it raises BAD_STATE and writes nothing else. -/
def Obligations.StartEnables : Prop :=
  ∀ (s : State) (n : Inst),
    ((s.uart n).life = .configured → (s.uart n).prdy = true →
      ((s.params n).mode = .queued → exec (.start n) s = .next { s.setUart n { s.uart n with
          te := true, re := true, rie := true, tie := true, life := .running } with
        ml := .idle, resps := s.resps ++ [0#32] }) ∧
      ((s.params n).mode = .polled → exec (.start n) s = .next { s.setUart n { s.uart n with
          te := true, re := true, life := .running } with
        ml := .idle, resps := s.resps ++ [0#32] })) ∧
    ((s.uart n).life ≠ .configured ∨ (s.uart n).prdy = false → s.fault.valid = false →
      exec (.start n) s = .next { s with
        fault := ⟨true, 0x05#8, instField (0x3000#16 ||| instBits n), 0x3000#16 ||| instBits n⟩ })

/-- R113, R40, R42: STAT completes in every state for selectors 0 to 6 and changes nothing but the
mainline's position and the responses; the register images are the registers; any other selector raises
ILLEGAL_OP. -/
def Obligations.StatReadsImage : Prop :=
  ∀ (s : State) (n : Inst),
    (∀ sel : Byte, sel.toNat ≤ 6 → ∃ v, image s n sel = some v ∧
      exec (.stat n sel) s = .next { s with ml := .idle, resps := s.resps ++ [v] }) ∧
    image s n 1#8 = some (s.uart n).rate ∧ image s n 2#8 = some (s.uart n).baud ∧
    image s n 3#8 = some (s.params n).moduleClockHz ∧ image s n 6#8 = some (s.uart n).rxdrop ∧
    (∀ sel : Byte, 6 < sel.toNat → s.fault.valid = false → exec (.stat n sel) s =
      .next { s with fault := ⟨true, 0x01#8, instField (encode (.stat n sel)).opw,
        (encode (.stat n sel)).opw⟩ })

/-- R39: every field of the STATUS image, the bits that read as zero, and the value after reset. -/
def Obligations.StatusImageFields : Prop :=
  (∀ (s : State) (n : Inst), ∃ v : Word, image s n 0#8 = some v ∧
    (v.extractLsb' 0 2 = match (s.uart n).life with
      | .uninit => 0#2 | .configured => 1#2 | .running => 2#2) ∧
    v.getLsbD 2 = (s.uart n).prdy ∧ v.getLsbD 3 = (s.uart n).te ∧ v.getLsbD 4 = (s.uart n).re ∧
    v.getLsbD 5 = (s.uart n).tie ∧ v.getLsbD 6 = (s.uart n).rie ∧ v.getLsbD 7 = (s.uart n).tdre ∧
    v.getLsbD 8 = (s.uart n).rdrf ∧ v.getLsbD 9 = (s.uart n).ovr ∧
    v.getLsbD 10 = decide ((s.params n).mode = .polled) ∧
    v.getLsbD 11 = decide (s.cfg.txIdlePolicy = .keepArmed) ∧ v.extractLsb' 12 20 = 0#20) ∧
  (∀ (c : Config) (wire0 wire1 : List Byte) (p : List Request) (n : Inst),
    image (State.resetWith c wire0 wire1 p) n 0#8 = some (0x00000080#32 |||
      ((if (c.inst n).mode = .polled then 1#32 else 0#32) <<< 10) |||
      ((if c.txIdlePolicy = .keepArmed then 1#32 else 0#32) <<< 11)))

/-- R41: every field of the TXQ and RXQ images, both cursors and the occupancy of one instant, for cursors
of an admitted capacity; and the values after reset. -/
def Obligations.QueueImageFields : Prop :=
  (∀ (s : State) (n : Inst), capacityOk (s.params n).capTx = true → capacityOk (s.params n).capRx = true →
    CursorInv (s.params n) (s.uart n) → ∃ v w : Word,
    image s n 4#8 = some v ∧ image s n 5#8 = some w ∧
    (v.extractLsb' 0 8).toNat = (s.uart n).trd ∧ (v.extractLsb' 8 8).toNat = (s.uart n).twr ∧
    ((v.extractLsb' 16 8).toNat : Int) = ((s.uart n).twr - (s.uart n).trd : Int) % (s.params n).capTx ∧
    (v.extractLsb' 24 8).toNat = (s.params n).capTx - 1 ∧
    (w.extractLsb' 0 8).toNat = (s.uart n).rrd ∧ (w.extractLsb' 8 8).toNat = (s.uart n).rwr ∧
    ((w.extractLsb' 16 8).toNat : Int) = ((s.uart n).rwr - (s.uart n).rrd : Int) % (s.params n).capRx ∧
    (w.extractLsb' 24 8).toNat = (s.params n).capRx - 1) ∧
  (∀ (c : Config) (wire0 wire1 : List Byte) (p : List Request) (n : Inst),
    image (State.resetWith c wire0 wire1 p) n 4#8 = some (BitVec.ofNat 32 ((c.inst n).capTx - 1) <<< 24) ∧
    image (State.resetWith c wire0 wire1 p) n 5#8 = some (BitVec.ofNat 32 ((c.inst n).capRx - 1) <<< 24))

/-! ## The channel, mainline side (41_channel_mainline.md) -/

/-- R86, R88, R59: PUT on a running queued instance with room completes in its four steps: M1 changes
nothing of the instance, M2 writes the slot, M3 publishes the write cursor, M4 arms TIE and responds 1;
nothing else of the machine changes. -/
def Obligations.PutAcceptsInFourSteps : Prop :=
  ∀ (s : State) (n : Inst) (b : Byte), InMode s n .queued →
    (s.uart n).twr < (s.params n).capTx →
    ((s.uart n).twr + 1) % (s.params n).capTx ≠ (s.uart n).trd →
    ∃ s1 s2 s3, exec (.put n b) s = .next s1 ∧ resume s1 = .next s2 ∧ resume s2 = .next s3 ∧
      s1 = { s with ml := .putM2 n (s.uart n).twr b } ∧
      s2.uart n = { s.uart n with bufT := (s.uart n).bufT.write (s.uart n).twr b } ∧
      s3.uart n = { s.uart n with
        bufT := (s.uart n).bufT.write (s.uart n).twr b,
        twr := ((s.uart n).twr + 1) % (s.params n).capTx } ∧
      resume s3 = .next { s.setUart n { s.uart n with
          bufT := (s.uart n).bufT.write (s.uart n).twr b,
          twr := ((s.uart n).twr + 1) % (s.params n).capTx, tie := true } with
        ml := .idle, resps := s.resps ++ [1#32] } ∧
      ((s.uart n).bufT.write (s.uart n).twr b).read (s.uart n).twr = some b ∧
      ∀ k, k ≠ (s.uart n).twr →
        ((s.uart n).bufT.write (s.uart n).twr b).read k = (s.uart n).bufT.read k

/-- R87: a PUT that finds the queue full responds 0 and writes nothing. -/
def Obligations.PutRejectionWritesNothing : Prop :=
  ∀ (s : State) (n : Inst) (b : Byte), InMode s n .queued →
    ((s.uart n).twr + 1) % (s.params n).capTx = (s.uart n).trd →
    exec (.put n b) s = .next { s with ml := .idle, resps := s.resps ++ [0#32] }

/-- R90: GET on a running queued instance with a byte ready completes in its three steps: M1 and M2 change
nothing of the instance, M3 publishes the read cursor and responds with the byte. -/
def Obligations.GetReturnsFrontByte : Prop :=
  ∀ (s : State) (n : Inst) (v : Byte), InMode s n .queued →
    (s.uart n).rrd < (s.params n).capRx → (s.uart n).rrd ≠ (s.uart n).rwr →
    (s.uart n).bufR.read (s.uart n).rrd = some v →
    ∃ s1 s2, exec (.get n) s = .next s1 ∧ resume s1 = .next s2 ∧
      s1 = { s with ml := .getM2 n (s.uart n).rrd } ∧
      s2 = { s with ml := .getM3 n (s.uart n).rrd v } ∧
      resume s2 = .next { s.setUart n { s.uart n with
          rrd := ((s.uart n).rrd + 1) % (s.params n).capRx } with
        ml := .idle, resps := s.resps ++ [0x100#32 ||| v.setWidth 32] }

/-- R90, R91: GET over an empty queue answers 0 at once and changes nothing else. -/
def Obligations.GetNeverBlocks : Prop :=
  ∀ (s : State) (n : Inst), InMode s n .queued → (s.uart n).rrd = (s.uart n).rwr →
    exec (.get n) s = .next { s with ml := .idle, resps := s.resps ++ [0#32] }

/-- R86, R90, R108, R114, R115, R124: PUT, GET, BPUT and BGET raise BAD_STATE on an instance that is not
RUNNING, in either mode, and BAD_MODE on a running one in the other mode, and write nothing else. -/
def Obligations.ChannelRequestsOutOfStateOrMode : Prop :=
  ∀ (s : State) (n : Inst) (b : Byte), s.fault.valid = false →
    ∀ i w mode, (i, w, mode) ∈
      [(Instr.put n b, 0x4000#16 ||| instBits n ||| b.setWidth 16, ChanMode.queued),
       (Instr.get n, 0x5000#16 ||| instBits n, ChanMode.queued),
       (Instr.bput n b, 0x6000#16 ||| instBits n ||| b.setWidth 16, ChanMode.polled),
       (Instr.bget n, 0x7000#16 ||| instBits n, ChanMode.polled)] →
      ((s.uart n).life ≠ .running →
        exec i s = .next { s with fault := ⟨true, 0x05#8, instField w, w⟩ }) ∧
      ((s.uart n).life = .running → (s.params n).mode ≠ mode →
        exec i s = .next { s with fault := ⟨true, 0x06#8, instField w, w⟩ })

/-! ## The channel, interrupt side (42_channel_interrupt.md) -/

/-- R94, R96: TXI over a queue that holds a written byte sends it: TDR, TDRE and the read cursor change, and
TIE is cleared exactly where the queue is then empty under DISARM; nothing else of the machine changes. -/
def Obligations.TxiSendsFrontByte : Prop :=
  ∀ (s : State) (n : Inst) (b : Byte), (s.uart n).trd ≠ (s.uart n).twr →
    (s.uart n).trd < (s.params n).capTx → (s.uart n).bufT.read (s.uart n).trd = some b →
    exec (.txi n) s = .next (s.setUart n { s.uart n with
      tdr := some b, tdre := false, trd := ((s.uart n).trd + 1) % (s.params n).capTx,
      tie := if ((s.uart n).trd + 1) % (s.params n).capTx = (s.uart n).twr ∧
          s.cfg.txIdlePolicy = .disarm then false else (s.uart n).tie })

/-- R94, R96, R97: TXI over an empty queue sends nothing; it clears TIE under DISARM and leaves the machine
as it is under KEEP_ARMED. -/
def Obligations.TxiOverEmptyQueue : Prop :=
  ∀ (s : State) (n : Inst), (s.uart n).trd = (s.uart n).twr →
    (s.cfg.txIdlePolicy = .disarm →
      exec (.txi n) s = .next (s.setUart n { s.uart n with tie := false })) ∧
    (s.cfg.txIdlePolicy = .keepArmed → exec (.txi n) s = .next s)

/-- R95, R98: RXI with room in the queue reads RDR, clears RDRF and stores the byte at the write cursor,
which advances; every other slot reads as before; nothing else of the machine changes. -/
def Obligations.RxiStoresByte : Prop :=
  ∀ (s : State) (n : Inst) (v : Byte), (s.uart n).rdr = some v →
    (s.uart n).rwr < (s.params n).capRx →
    ((s.uart n).rwr + 1) % (s.params n).capRx ≠ (s.uart n).rrd →
    exec (.rxi n) s = .next (s.setUart n { s.uart n with
      rdrf := false, bufR := (s.uart n).bufR.write (s.uart n).rwr v,
      rwr := ((s.uart n).rwr + 1) % (s.params n).capRx }) ∧
    ((s.uart n).bufR.write (s.uart n).rwr v).read (s.uart n).rwr = some v ∧
    ∀ k, k ≠ (s.uart n).rwr →
      ((s.uart n).bufR.write (s.uart n).rwr v).read k = (s.uart n).bufR.read k

/-- R95, R98, R99, R12: RXI over a full queue reads RDR all the same, clears RDRF, leaves the queue as it is
and counts the dropped byte modulo 2^32; nothing else of the machine changes. -/
def Obligations.RxiDropsNewest : Prop :=
  ∀ (s : State) (n : Inst) (v : Byte), (s.uart n).rdr = some v →
    ((s.uart n).rwr + 1) % (s.params n).capRx = (s.uart n).rrd →
    ∃ k : Word, k.toNat = ((s.uart n).rxdrop.toNat + 1) % 2 ^ 32 ∧
      exec (.rxi n) s = .next (s.setUart n { s.uart n with rdrf := false, rxdrop := k })

/-! ## The polled API and the line (44_polled.md, 45_line.md) -/

/-- R114: BPUT on a running polled instance completes: M1 changes nothing of the instance; M2 is held until
TDRE = 1; then it writes TDR, clears TDRE and responds 0. -/
def Obligations.BputWaitsThenWrites : Prop :=
  ∀ (s : State) (n : Inst) (b : Byte), InMode s n .polled →
    exec (.bput n b) s = .next { s with ml := .bputM2 n b } ∧
    mainReady { s with ml := .bputM2 n b } = (s.uart n).tdre ∧
    resume { s with ml := .bputM2 n b } = .next { s.setUart n { s.uart n with
        tdr := some b, tdre := false } with ml := .idle, resps := s.resps ++ [0#32] }

/-- R115: BGET on a running polled instance completes: M1 changes nothing of the instance; M2 is held until
RDRF = 1; then it reads RDR, clears RDRF and responds with the byte. -/
def Obligations.BgetWaitsThenReads : Prop :=
  ∀ (s : State) (n : Inst), InMode s n .polled →
    exec (.bget n) s = .next { s with ml := .bgetM2 n } ∧
    mainReady { s with ml := .bgetM2 n } = (s.uart n).rdrf ∧
    ∀ v, (s.uart n).rdr = some v →
      resume { s with ml := .bgetM2 n } = .next { s.setUart n { s.uart n with rdrf := false } with
        ml := .idle, resps := s.resps ++ [0x100#32 ||| v.setWidth 32] }

/-- R117: the transmitter takes the byte in TDR where TE = 1 and TDRE = 0: it joins the wire at the end,
TDRE is 1 again, TDR keeps its value, and nothing else of the machine changes. -/
def Obligations.TransmitterTakesByte : Prop :=
  ∀ (s : State) (n : Inst),
    (enabled s (.ltx n) = true ↔
      s.fault.valid = false ∧ (s.uart n).te = true ∧ (s.uart n).tdre = false) ∧
    ∀ b, (s.uart n).tdr = some b → runMove (.ltx n) s = .next (s.setUart n { s.uart n with
      wireOut := (s.uart n).wireOut ++ [b], tdre := true })

/-- R118: the receiver takes the next byte of the wire: lost while RE = 0, into RDR with RDRF set while
RDRF = 0, and else lost with OVR set and RDR as before; nothing else of the machine changes. -/
def Obligations.ReceiverTakesByte : Prop :=
  ∀ (s : State) (n : Inst),
    (enabled s (.lrx n) = true ↔ s.fault.valid = false ∧ (s.uart n).wireIn ≠ []) ∧
    ∀ v rest, (s.uart n).wireIn = v :: rest →
      ((s.uart n).re = false →
        runMove (.lrx n) s = .next (s.setUart n { s.uart n with wireIn := rest })) ∧
      ((s.uart n).re = true → (s.uart n).rdrf = false → runMove (.lrx n) s =
        .next (s.setUart n { s.uart n with wireIn := rest, rdr := some v, rdrf := true })) ∧
      ((s.uart n).re = true → (s.uart n).rdrf = true → runMove (.lrx n) s =
        .next (s.setUart n { s.uart n with wireIn := rest, ovr := true }))

/-! ## Faults, agents and scheduling (20_memory.md, 60_exceptions.md) -/

/-- R122, R123: an instruction that raises a fault writes the record of its own word and has no other
effect, and no agent has a step from then on. That a halted machine's step answers `.fault .halted` is the
model's choice (log entry 5). -/
def Obligations.FaultsArePrecise : Prop :=
  ∀ (i : Instr) (s t : State), s.fault.valid = false → exec i s = .next t → t.fault.valid = true →
    (∃ code : BitVec 8, 1 ≤ code.toNat ∧ code.toNat ≤ 6 ∧
      t = { s with fault := ⟨true, code, instField (encode i).opw, (encode i).opw⟩ }) ∧
    (configOk t.cfg = true → step t = .fault .halted)

/-- R51: where FAULT is valid no agent has a step. That the machine's step then answers `.fault .halted` is
the model's choice (log entry 5). -/
def Obligations.FaultedMachineHasNoStep : Prop :=
  ∀ s : State, s.fault.valid = true →
    (∀ m, enabled s m = false) ∧ choose s = none ∧ (configOk s.cfg = true → step s = .fault .halted)

/-- R53: when the mainline has a step. That an offered next request is a list in State that is not empty is
the model's form (log entry 3). -/
def Obligations.MainlineHasStepExactly : Prop :=
  ∀ s : State, enabled s .main = true ↔
    s.fault.valid = false ∧
    (∀ n, ¬ ((s.uart n).tie = true ∧ (s.uart n).tdre = true) ∧
      ¬ ((s.uart n).rie = true ∧ (s.uart n).rdrf = true)) ∧
    ((s.ml = .idle ∧ s.program ≠ []) ∨
      (s.ml ≠ .idle ∧ (∀ n b, s.ml = .bputM2 n b → (s.uart n).tdre = true) ∧
        (∀ n, s.ml = .bgetM2 n → (s.uart n).rdrf = true)))

/-- R52, R128 b: when the interrupt agent has a step, and that its step runs exactly one entry point: RXI of
the instance served where RXIRQ is 1, otherwise TXI. That the step also reads one agenda entry and is
counted (`advance`) is the model's own (log entry 2). -/
def Obligations.InterruptHasStepExactly : Prop :=
  ∀ s : State,
    ((∃ n, enabled s (.irq n) = true) ↔ s.fault.valid = false ∧
      ∃ n, ((s.uart n).tie = true ∧ (s.uart n).tdre = true) ∨
        ((s.uart n).rie = true ∧ (s.uart n).rdrf = true)) ∧
    ∀ n, configOk s.cfg = true → choose s = some (.irq n) →
      (((s.uart n).rie = true ∧ (s.uart n).rdrf = true) → step s = exec (.rxi n) (advance s)) ∧
      (¬ ((s.uart n).rie = true ∧ (s.uart n).rdrf = true) →
        (s.uart n).tie = true ∧ (s.uart n).tdre = true ∧ step s = exec (.txi n) (advance s))

/-- R55, R56, R128 a: every move that has a step can be the one taken, whatever the state, and only such a
move is taken; none is taken exactly where none has a step. That the choice is made by the head of an agenda
held in State, and by a free value where the agenda does not name one, is the model's choice (log entry 2). -/
def Obligations.EveryOrderIsAdmitted : Prop :=
  (∀ (s : State) (m : Move), enabled s m = true →
    choose { s with agenda := m :: s.agenda } = some m) ∧
  (∀ (s : State) (m : Move), choose s = some m → enabled s m = true) ∧
  (∀ s : State, choose s = none ↔ ∀ m, enabled s m = false)

/-- R131, R133: taking an entry point leaves the mainline's position, the fault record, the configuration and
the other instance as they are, and of its own instance every enable but TIE; the model's own fields, the
responses, the offered program and the schedule, are as they were too (log entries 2, 3 and 4). -/
def Obligations.EntryPointSavesNothing : Prop :=
  ∀ (i : Instr) (n : Inst) (s t : State), i = .txi n ∨ i = .rxi n → exec i s = .next t →
    t.ml = s.ml ∧ t.fault = s.fault ∧ t.resps = s.resps ∧ t.program = s.program ∧ t.cfg = s.cfg ∧
    t.agenda = s.agenda ∧ t.tick = s.tick ∧ t.uart n.other = s.uart n.other ∧
    (t.uart n).te = (s.uart n).te ∧ (t.uart n).re = (s.uart n).re ∧ (t.uart n).rie = (s.uart n).rie ∧
    (t.uart n).life = (s.uart n).life

/-- R53 b, R69: a step taken by an idle mainline whose next request decodes to an instruction is that
instruction's meaning. That the request is taken from the head of a list is the model's form of the offer
(log entry 3), and that one agenda entry is read and the step is counted is the model's own (log entry 2). -/
def Obligations.StepRunsDecodedInstruction : Prop :=
  ∀ (s : State) (r : Request) (rest : List Request) (i : Instr),
    configOk s.cfg = true → choose s = some .main → s.ml = .idle → s.program = r :: rest →
    decode r = .ok i → i.isEntryPoint = false →
    step s = exec i { s with program := rest, agenda := s.agenda.tail, tick := s.tick + 1 }

/-- R37, R53 a, R54: a step taken by a busy mainline is the step its position names. That one agenda entry is
read and the step is counted is the model's own (log entry 2). -/
def Obligations.StepResumesRequestInProgress : Prop :=
  ∀ s : State, configOk s.cfg = true → choose s = some .main → s.ml ≠ .idle →
    step s = resume { s with agenda := s.agenda.tail, tick := s.tick + 1 }

/-- Log entries 2, 3 and 17 (the model's own): an instruction placed by withFetchWord is the one the next step
runs, and the state it runs in: mainline requests as an idle quiet mainline's next request, TXI with its TX
source pending alone, RXI with its RX source pending and a byte in RDR; everything else is as it was. -/
def Obligations.PlacedInstructionRunsNext : Prop :=
  ∀ (s : State) (nbits w : Nat) (i : Instr), configOk s.cfg = true →
    decodeTableWord nbits w = some i →
    (i.isEntryPoint = false → step (s.withFetchWord nbits w) = exec i { s with
      u0 := quiet s.u0, u1 := quiet s.u1, fault := { s.fault with valid := false }, ml := .idle,
      tick := s.tick + 1 }) ∧
    (∀ n, i = .txi n → step (s.withFetchWord nbits w) = exec i { s.setUart n { s.uart n with
        tie := true, tdre := true, rie := (s.uart n).rie && !(s.uart n).rdrf } with
      fault := { s.fault with valid := false }, tick := s.tick + 1 }) ∧
    (∀ n, i = .rxi n → step (s.withFetchWord nbits w) = exec i { s.setUart n { s.uart n with
        rie := true, rdrf := true, rdr := some ((s.uart n).rdr.getD 0#8) } with
      fault := { s.fault with valid := false }, tick := s.tick + 1 })

/-- R58, R51: the machine without a step is faulted, final (in R58's own words) or stuck. That its step
answers `.fault` with `halted`, `ended` or `stuck` for these three is the model's choice (log entry 5). -/
def Obligations.RunEndsFaultedFinalOrStuck : Prop :=
  ∀ s : State, configOk s.cfg = true →
    (step s = .fault .ended ↔ IsFinal s) ∧
    (step s = .fault .halted ↔ s.fault.valid = true) ∧
    ((∀ m, enabled s m = false) → s.fault.valid = false → ¬ IsFinal s → step s = .fault .stuck)

/-- R7, R151: a configuration with a capacity that is not a power of two in 2 .. 256 is refused. -/
def Obligations.BadCapacityIsRefused : Prop :=
  ∀ s : State,
    (∃ n, ¬ (∃ k, 1 ≤ k ∧ k ≤ 8 ∧ (s.params n).capTx = 2 ^ k) ∨
      ¬ (∃ k, 1 ≤ k ∧ k ≤ 8 ∧ (s.params n).capRx = 2 ^ k)) ↔
    step s = .refused .capacity

/-! ## Reset (10_state.md, 70_reset_and_hazards.md) -/

/-- R43: every piece of state after reset, under any configuration and inputs, with no interrupt pending. -/
def Obligations.ResetValues : Prop :=
  ∀ (c : Config) (wire0 wire1 : List Byte) (p : List Request),
    let s := State.resetWith c wire0 wire1 p
    s.ml = .idle ∧ s.fault = ⟨false, 0#8, 0#1, 0#16⟩ ∧ s.u0.wireIn = wire0 ∧ s.u1.wireIn = wire1 ∧
    ∀ n, (s.uart n).life = .uninit ∧ (s.uart n).prdy = false ∧ (s.uart n).baud = 0#32 ∧
      sbrOf (s.uart n).rate = 0#13 ∧ brfaOf (s.uart n).rate = 0#5 ∧
      otherOf (s.uart n).rate = (c.inst n).rateOther ∧
      (s.uart n).te = false ∧ (s.uart n).re = false ∧ (s.uart n).rie = false ∧ (s.uart n).tie = false ∧
      (s.uart n).tdre = true ∧ (s.uart n).rdrf = false ∧ (s.uart n).ovr = false ∧
      (s.uart n).tdr = none ∧ (s.uart n).rdr = none ∧
      (∀ k, (s.uart n).bufT.read k = none ∧ (s.uart n).bufR.read k = none) ∧
      (s.uart n).twr = 0 ∧ (s.uart n).trd = 0 ∧ (s.uart n).rwr = 0 ∧ (s.uart n).rrd = 0 ∧
      (s.uart n).rxdrop = 0#32 ∧ (s.uart n).wireOut = [] ∧
      txIrq (s.uart n) = false ∧ rxIrq (s.uart n) = false

/-- R43, R142: the invariant holds after reset, under every admitted configuration and every input. -/
def Obligations.ResetMeetsInvariant : Prop :=
  ∀ (c : Config) (wire0 wire1 : List Byte) (p : List Request), configOk c = true →
    MachineInv (State.resetWith c wire0 wire1 p)

/-! ## Whole-machine rules -/

/-- R100, R102, R103, R112, R116, R89, R92: every step of every agent keeps the invariant: cursors in
range, storages canonical, every slot between the cursors written, data registers full where flagged, the
lifecycle's control bits, no lost wake-up under DISARM, the mainline's locals still true. -/
def Obligations.StepKeepsInvariant : Prop :=
  ∀ s t : State, MachineInv s → step s = .next t → MachineInv t

/-- R102, R18: from a state that meets the invariant no step reads a slot or a data register that holds
none, or uses a slot outside the queue. -/
def Obligations.NoModelFaultFromInvariant : Prop :=
  ∀ (s : State) (f : Fault), MachineInv s → step s = .fault f → ¬ IsModelFault f

/-- R101, R57, R117: what an instance has on the way out (the wire, TDR, the TX queue) is changed by no step
but at its end, by the byte that a PUT's M3 publishes or a BPUT's M2 writes: no byte is lost, repeated or
reordered. -/
def Obligations.TransmitStreamIsFifo : Prop :=
  ∀ (s t : State) (m : Move) (n : Inst), MachineInv s → choose s = some m → step s = .next t →
    txStream (s.params n).capTx (t.uart n) =
      txStream (s.params n).capTx (s.uart n) ++ committed m s.ml n

/-- R101, R99, R57: the RX queue changes only at its back, by the byte in RDR where RXI keeps it, and at its
front, by the byte GET's M3 responds with; RXI over a full queue leaves it as it is and counts. -/
def Obligations.ReceiveQueueIsFifo : Prop :=
  ∀ (s t : State) (m : Move) (n : Inst), MachineInv s → choose s = some m → step s = .next t →
    let before := rxQueue (s.params n).capRx (s.uart n)
    let after := rxQueue (s.params n).capRx (t.uart n)
    (m = .irq n → rxIrq (s.uart n) = true →
      if isFull (s.params n).capRx (s.uart n).rwr (s.uart n).rrd then
        after = before ∧ (t.uart n).rxdrop = (s.uart n).rxdrop + 1#32
      else after = before ++ [(s.uart n).rdr] ∧ (t.uart n).rxdrop = (s.uart n).rxdrop) ∧
    (∀ r v, m = .main → s.ml = .getM3 n r v →
      before = some v :: after ∧ t.resps = s.resps ++ [0x100#32 ||| v.setWidth 32]) ∧
    (¬ (m = .irq n ∧ rxIrq (s.uart n) = true) → ¬ (m = .main ∧ ∃ r v, s.ml = .getM3 n r v) →
      after = before)

/-- R97, R146: under KEEP_ARMED, once a TX source is armed over an empty queue and an empty data register,
the run goes on for any number of steps and the mainline never takes one: its position, its program and
its responses stay as they are. Whatever the order of the agents. -/
def Obligations.KeepArmedStormNeverEnds : Prop :=
  ∀ (n : Inst) (s : State), MachineInv s → Storm n s → ∀ k : Nat,
    ∃ t : State, Host.Core.run Sys2Proof.core k s = .next t ∧ Storm n t ∧
      t.ml = s.ml ∧ t.program = s.program ∧ t.resps = s.resps

/-- R84, R143: no step changes the configuration or the 14 unrelated bits of a RATE register. -/
def Obligations.UnrelatedRateBitsNeverChange : Prop :=
  ∀ s t : State, step s = .next t →
    t.cfg = s.cfg ∧ ∀ n, otherOf (t.uart n).rate = otherOf (s.uart n).rate

/-- R32: each cursor has one writer after INIT: TWR a PUT's M3, TRD an interrupt step (TXI), RWR an interrupt
step (RXI), RRD a GET's M3; the one other writer is the INIT that configures the instance. -/
def Obligations.OneWriterPerCursor : Prop :=
  ∀ (s t : State) (m : Move) (n : Inst), choose s = some m → step s = .next t →
    let initialises := m = .main ∧ (s.uart n).life = .uninit ∧ (t.uart n).life = .configured
    ((t.uart n).twr ≠ (s.uart n).twr → (m = .main ∧ ∃ w b, s.ml = .putM3 n w b) ∨ initialises) ∧
    ((t.uart n).trd ≠ (s.uart n).trd → (m = .irq n ∧ rxIrq (s.uart n) = false) ∨ initialises) ∧
    ((t.uart n).rwr ≠ (s.uart n).rwr → (m = .irq n ∧ rxIrq (s.uart n) = true) ∨ initialises) ∧
    ((t.uart n).rrd ≠ (s.uart n).rrd → (m = .main ∧ ∃ r v, s.ml = .getM3 n r v) ∨ initialises)

/-- R93, R106: what an instruction, a later step of a request, or a Line step does on one instance neither
reads nor writes the state of the other: replace the other instance by any, and the outcome is the same
with that instance replaced. CALC reads and writes neither. -/
def Obligations.InstancesAreIndependent : Prop :=
  (∀ (i : Instr) (n : Inst) (s : State) (u : Uart), i.inst? = some n ∨ i.inst? = none →
    exec i (s.setUart n.other u) = mapNext (fun t => t.setUart n.other u) (exec i s)) ∧
  (∀ (n : Inst) (s : State) (u : Uart), s.ml.inst? = some n →
    resume (s.setUart n.other u) = mapNext (fun t => t.setUart n.other u) (resume s)) ∧
  (∀ (n : Inst) (s : State) (u : Uart) (m : Move), m = .ltx n ∨ m = .lrx n →
    runMove m (s.setUart n.other u) = mapNext (fun t => t.setUart n.other u) (runMove m s))

/-- R25, R104, R105: under DISARM an interrupt step that sends nothing leaves TIE = 0; TIE is set only by a
mainline step that runs START or a PUT's M4; every RXI leaves RDRF = 0 and RDRF is set only by a Line step
that takes a byte from the wire. So no storm can run on without the mainline or the line. -/
def Obligations.InterruptSourcesAreDischarged : Prop :=
  ∀ (s t : State) (m : Move) (n : Inst), choose s = some m → step s = .next t →
    (m = .irq n → rxIrq (s.uart n) = false → s.cfg.txIdlePolicy = .disarm →
      (t.uart n).trd = (s.uart n).trd → (s.params n).capTx ≥ 2 → (s.uart n).trd < (s.params n).capTx →
      (t.uart n).tie = false) ∧
    ((s.uart n).tie = false → (t.uart n).tie = true →
      m = .main ∧ ((∃ w b, s.ml = .putM4 n w b) ∨
        ((s.uart n).life = .configured ∧ (t.uart n).life = .running))) ∧
    (m = .irq n → rxIrq (s.uart n) = true → (t.uart n).rdrf = false) ∧
    ((s.uart n).rdrf = false → (t.uart n).rdrf = true →
      m = .lrx n ∧ ∃ v, (s.uart n).wireIn = v :: (t.uart n).wireIn ∧ (t.uart n).rdr = some v)

/-- R22, R108: an instance's lifecycle only moves from UNINIT to CONFIGURED, by a mainline step that runs
INIT, and from CONFIGURED to RUNNING, by one that runs START. -/
def Obligations.LifecycleMovesForward : Prop :=
  ∀ (s t : State) (n : Inst), step s = .next t → (t.uart n).life ≠ (s.uart n).life →
    choose s = some .main ∧ s.ml = .idle ∧ ∃ r rest, s.program = r :: rest ∧
      (((s.uart n).life = .uninit ∧ (t.uart n).life = .configured ∧
          ∃ baud, decode r = .ok (.init n baud)) ∨
        ((s.uart n).life = .configured ∧ (t.uart n).life = .running ∧ decode r = .ok (.start n)))

/-- R23, R24, R109, R153: the rate fields are 0 before INIT and afterwards those of the baud rate INIT was
given; every step keeps this. -/
def Obligations.RateFieldsStayThoseOfBaud : Prop :=
  ∀ s t : State, RateInv s → step s = .next t → RateInv t

/-! ## Frames -/

/-- R85, R86, R90, R94, R95, R109, R111, R113, R114, R115: what an instruction leaves unchanged. The
configuration, the program, the schedule and every instance it does not address; the fault record, or else
everything but it; the responses already given; of its own instance, everything but the registers named
here; of the queue storages, every slot but the one RXI stores to, and all of them where RXI finds the queue
full and stores nothing; where TXI finds the queue empty, all but TIE. The program, the schedule and the
responses are the model's own fields (log entries 2, 3 and 4). -/
def Obligations.InstructionFrame : Prop :=
  ∀ (i : Instr) (s t : State), exec i s = .next t →
    t.cfg = s.cfg ∧ t.program = s.program ∧ t.agenda = s.agenda ∧ t.tick = s.tick ∧
    (t.fault = s.fault ∨ t.ml = s.ml ∧ t.resps = s.resps ∧ ∀ k, t.uart k = s.uart k) ∧
    (t.resps = s.resps ∨ ∃ v, t.resps = s.resps ++ [v]) ∧
    (∀ k, i.inst? ≠ some k → t.uart k = s.uart k) ∧
    (match i with
      | .calcDiv _ _ => True
      | .stat n _ => t.uart n = s.uart n
      | .put n _ => t.uart n = s.uart n
      | .get n => t.uart n = s.uart n
      | .bput n _ => t.uart n = s.uart n
      | .bget n => t.uart n = s.uart n
      | .init n _ => otherOf (t.uart n).rate = otherOf (s.uart n).rate ∧ t.uart n = { s.uart n with
          prdy := (t.uart n).prdy, rate := (t.uart n).rate, baud := (t.uart n).baud,
          twr := (t.uart n).twr, trd := (t.uart n).trd, rwr := (t.uart n).rwr, rrd := (t.uart n).rrd,
          rxdrop := (t.uart n).rxdrop, life := (t.uart n).life }
      | .start n => t.uart n = { s.uart n with
          te := (t.uart n).te, re := (t.uart n).re, rie := (t.uart n).rie, tie := (t.uart n).tie,
          life := (t.uart n).life }
      | .txi n => ((s.uart n).trd = (s.uart n).twr → t.uart n = { s.uart n with tie := (t.uart n).tie }) ∧
          (s.cfg.txIdlePolicy = .keepArmed → (t.uart n).tie = (s.uart n).tie) ∧
          t.uart n = { s.uart n with
            tdr := (t.uart n).tdr, tdre := (t.uart n).tdre, trd := (t.uart n).trd, tie := (t.uart n).tie }
      | .rxi n => (((s.uart n).rwr + 1) % (s.params n).capRx = (s.uart n).rrd →
            t.uart n = { s.uart n with rdrf := (t.uart n).rdrf, rxdrop := (t.uart n).rxdrop }) ∧
          (((s.uart n).rwr + 1) % (s.params n).capRx ≠ (s.uart n).rrd →
            (t.uart n).rxdrop = (s.uart n).rxdrop) ∧
          (∀ k, k ≠ (s.uart n).rwr → (t.uart n).bufR.read k = (s.uart n).bufR.read k) ∧
          t.uart n = { s.uart n with
            rdrf := (t.uart n).rdrf, bufR := (t.uart n).bufR, rwr := (t.uart n).rwr,
            rxdrop := (t.uart n).rxdrop })

/-- R86, R90, R114, R115, R32: what a later step of a request leaves unchanged: no fault, no change of the
configuration, the program, the schedule or the other instance; of its own instance, everything but the
registers named here; of the queue storages, every slot but the one PUT's M2 stores to. The program, the
schedule and the responses are the model's own fields (log entries 2, 3 and 4). -/
def Obligations.LaterStepFrame : Prop :=
  ∀ s t : State, resume s = .next t →
    t.cfg = s.cfg ∧ t.fault = s.fault ∧ t.program = s.program ∧ t.agenda = s.agenda ∧ t.tick = s.tick ∧
    (∀ k, s.ml.inst? ≠ some k → t.uart k = s.uart k) ∧
    (match s.ml with
      | .idle => False
      | .putM2 n w _ => (∀ k, k ≠ w → (t.uart n).bufT.read k = (s.uart n).bufT.read k) ∧
          t.resps = s.resps ∧ t.uart n = { s.uart n with bufT := (t.uart n).bufT }
      | .putM3 n _ _ => t.resps = s.resps ∧ t.uart n = { s.uart n with twr := (t.uart n).twr }
      | .putM4 n _ _ => t.uart n = { s.uart n with tie := true }
      | .getM2 n _ => t.resps = s.resps ∧ t.uart n = s.uart n
      | .getM3 n _ _ => t.uart n = { s.uart n with rrd := (t.uart n).rrd }
      | .bputM2 n _ => t.uart n = { s.uart n with tdr := (t.uart n).tdr, tdre := false }
      | .bgetM2 n => t.uart n = { s.uart n with rdrf := false })
end

