-- ==== Sys2Proof/Laws/Decode.lean ====
section
/-! SUPPORT. The fields of the words the encoder writes, and the fields as bits of a word. -/

namespace Sys2Proof

/-- The INST bit of an instance. -/
def bitOfInst : Inst → BitVec 1
  | .i0 => 0#1
  | .i1 => 1#1

@[simp] theorem instOfBit_bitOfInst (n : Inst) : instOfBit (bitOfInst n) = n := by cases n <;> decide

theorem instBits_getLsbD (n : Inst) (i : Nat) :
    (instBits n).getLsbD i = (decide (i = 8) && decide (n = .i1)) := by
  by_cases h : i < 16
  · interval_cases i <;> cases n <;> decide
  · rw [BitVec.getLsbD_of_ge _ _ (by omega)]
    have : ¬ i = 8 := by omega
    simp [this]

/-- A word whose bits 8 to 0 are clear has those bits clear, one by one. -/
theorem low_bits_clear {p : Opw} (h : p &&& 0x01FF#16 = 0#16) {i : Nat} (hi : i < 9) :
    p.getLsbD i = false := by
  have h1 : (p &&& 0x01FF#16).getLsbD i = false := by rw [h]; simp
  rw [BitVec.getLsbD_and] at h1
  have h2 : (0x01FF#16).getLsbD i = true := by interval_cases i <;> decide
  simpa [h2] using h1

/-- The four fields of an operation pattern with an INST bit and a DATA byte ored in. -/
theorem fields_of_word (p : Opw) (n : Inst) (b : Byte) (h : p &&& 0x01FF#16 = 0#16) :
    opField (p ||| instBits n ||| b.setWidth 16) = opField p ∧
    rsvdField (p ||| instBits n ||| b.setWidth 16) = rsvdField p ∧
    instField (p ||| instBits n ||| b.setWidth 16) = bitOfInst n ∧
    dataField (p ||| instBits n ||| b.setWidth 16) = b := by
  have hb : ∀ k, 8 ≤ k → b.getLsbD k = false := fun k hk => BitVec.getLsbD_of_ge _ _ hk
  refine ⟨?_, ?_, ?_, ?_⟩ <;> apply BitVec.eq_of_getLsbD_eq <;> intro i hi <;>
    simp only [opField, rsvdField, instField, dataField, BitVec.getLsbD_extractLsb',
      BitVec.getLsbD_or, instBits_getLsbD, BitVec.getLsbD_setWidth]
  · simp [hb (12 + i) (by omega), show ¬ 12 + i = 8 by omega]
  · simp [hb (9 + i) (by omega), show ¬ 9 + i = 8 by omega]
  · have : i = 0 := by omega
    subst this
    simp only [low_bits_clear h (show 8 + 0 < 9 by omega), hb (8 + 0) (by omega)]
    cases n <;> decide
  · rw [Nat.zero_add, low_bits_clear h (show i < 9 by omega)]
    simp [hi, show ¬ i = 8 by omega, show i < 16 by omega]

/-- The four fields of an operation pattern with an INST bit and no DATA. -/
theorem fields_of_word_no_data (p : Opw) (n : Inst) (h : p &&& 0x01FF#16 = 0#16) :
    opField (p ||| instBits n) = opField p ∧ rsvdField (p ||| instBits n) = rsvdField p ∧
    instField (p ||| instBits n) = bitOfInst n ∧ dataField (p ||| instBits n) = 0#8 := by
  simpa using fields_of_word p n 0#8 h

/-- A word is its four fields side by side. -/
theorem word_eq_fields (w : Opw) :
    w = opField w ++ rsvdField w ++ instField w ++ dataField w := by
  apply BitVec.eq_of_getLsbD_eq
  intro i hi
  simp only [opField, rsvdField, instField, dataField, BitVec.getLsbD_append,
    BitVec.getLsbD_extractLsb']
  by_cases h8 : i < 8
  · simp [h8]
  by_cases h9 : i < 9
  · have : i = 8 := by omega
    subst this; simp
  by_cases h12 : i < 12
  · simp [h8, show ¬ i - 8 < 1 by omega, show i - 8 - 1 < 3 by omega,
      show 9 + (i - 8 - 1) = i by omega]
  · simp [h8, show ¬ i - 8 < 1 by omega, show ¬ i - 8 - 1 < 3 by omega,
      show i - 8 - 1 - 3 < 4 by omega, show 12 + (i - 8 - 1 - 3) = i by omega]

end Sys2Proof
end

