-- ==== Sys2Proof/Laws/Memory.lean ====
section
/-! SUPPORT. The laws of queue storage: a read after a write, and that every write keeps the canonical
form and the slots' range. -/

namespace Sys2Proof.Machine

theorem Memory.read_write_same (m : Memory) (k : Nat) (v : Byte) : (m.write k v).read k = some v := by
  induction m with
  | nil => simp [Memory.write, Memory.read]
  | cons c m ih =>
    obtain ⟨a, b⟩ := c
    simp only [Memory.write]
    split
    · simp [Memory.read]
    · split
      · simp [Memory.read]
      · rename_i h1 h2
        simp [Memory.read, h2, ih]

theorem Memory.read_write_other (m : Memory) {k j : Nat} (v : Byte) (h : j ≠ k) :
    (m.write k v).read j = m.read j := by
  induction m with
  | nil => simp [Memory.write, Memory.read, h]
  | cons c m ih =>
    obtain ⟨a, b⟩ := c
    simp only [Memory.write]
    split
    · simp [Memory.read, h]
    · split
      · rename_i h1 h2
        subst h2
        simp [Memory.read, h]
      · simp only [Memory.read, ih]

/-- A read after a write, in one equation. -/
theorem Memory.read_write (m : Memory) (k j : Nat) (v : Byte) :
    (m.write k v).read j = if j = k then some v else m.read j := by
  split
  · rename_i h
    rw [h, Memory.read_write_same]
  · rename_i h
    exact Memory.read_write_other m v h

theorem Memory.risesAbove_write {m : Memory} {j k : Nat} (v : Byte) (hj : j < k)
    (h : m.risesAbove j = true) : (m.write k v).risesAbove j = true := by
  induction m generalizing j with
  | nil => simp [Memory.write, Memory.risesAbove, hj]
  | cons c m ih =>
    obtain ⟨a, b⟩ := c
    simp only [Memory.risesAbove, Bool.and_eq_true, decide_eq_true_eq] at h
    simp only [Memory.write]
    split
    · rename_i h1
      simp [Memory.risesAbove, hj, h1, h.2]
    · split
      · rename_i h1 h2
        subst h2
        simp [Memory.risesAbove, hj, h.2]
      · rename_i h1 h2
        simp [Memory.risesAbove, h.1, ih (by omega) h.2]

/-- A write keeps the canonical form. -/
theorem Memory.wf_write {m : Memory} (k : Nat) (v : Byte) (h : m.wf = true) :
    (m.write k v).wf = true := by
  cases m with
  | nil => simp [Memory.write, Memory.wf, Memory.risesAbove]
  | cons c m =>
    obtain ⟨a, b⟩ := c
    simp only [Memory.wf] at h
    simp only [Memory.write]
    split
    · rename_i h1
      simp [Memory.wf, Memory.risesAbove, h1, h]
    · split
      · rename_i h1 h2
        subst h2
        simpa [Memory.wf] using h
      · rename_i h1 h2
        simpa [Memory.wf] using Memory.risesAbove_write v (by omega) h

/-- A write to a slot of the queue lists only slots of the queue. -/
theorem Memory.within_write {C : Nat} {m : Memory} {k : Nat} (v : Byte) (hk : k < C)
    (h : m.within C = true) : (m.write k v).within C = true := by
  induction m with
  | nil => simp [Memory.write, Memory.within, hk]
  | cons c m ih =>
    obtain ⟨a, b⟩ := c
    simp only [Memory.within, Bool.and_eq_true, decide_eq_true_eq] at h
    simp only [Memory.write]
    split
    · simp [Memory.within, hk, h.1, h.2]
    · split
      · simp [Memory.within, hk, h.2]
      · simp [Memory.within, h.1, ih h.2]

/-- The storage of a queue at reset is canonical. -/
theorem Memory.wf_nil : Memory.wf [] = true := rfl

/-! ## The slot operations -/

/-- Everything a slot read can answer. -/
theorem readSlot_ok {C : Nat} {m : Memory} {k : Nat} {b : Byte} :
    readSlot C m k = .ok b ↔ k < C ∧ m.read k = some b := by
  unfold readSlot
  split
  · split <;> simp_all
  · simp_all

/-- Everything a slot write can answer. -/
theorem writeSlot_ok {C : Nat} {m m' : Memory} {k : Nat} {b : Byte} :
    writeSlot C m k b = .ok m' ↔ k < C ∧ m' = m.write k b := by
  unfold writeSlot
  split <;> simp_all [eq_comm]

theorem readData_ok {r : Option Byte} {b : Byte} : readData r = .ok b ↔ r = some b := by
  cases r <;> simp [readData]

end Sys2Proof.Machine
end

