-- ==== Sys2Proof/Laws/State.lean ====
section
/-! SUPPORT. One lemma per field per named update of State, so that no proof unfolds one. -/

namespace Sys2Proof.Machine

variable (s : State) (n k : Inst) (u v : Uart)

@[simp] theorem other_ne : n.other ≠ n := by cases n <;> decide

@[simp] theorem ne_other : n ≠ n.other := by cases n <;> decide

@[simp] theorem other_other : n.other.other = n := by cases n <;> rfl

theorem eq_other_of_ne {n k : Inst} (h : k ≠ n) : k = n.other := by
  cases n <;> cases k <;> first | rfl | exact absurd rfl h

/-! ## setUart -/

@[simp] theorem uart_setUart_same : (s.setUart n u).uart n = u := by cases n <;> rfl

@[simp] theorem uart_setUart_other : (s.setUart n u).uart n.other = s.uart n.other := by
  cases n <;> rfl

theorem uart_setUart_of_ne {n k : Inst} (h : k ≠ n) : (s.setUart n u).uart k = s.uart k := by
  cases n <;> cases k <;> first | rfl | exact absurd rfl h

@[simp] theorem setUart_cfg : (s.setUart n u).cfg = s.cfg := by cases n <;> rfl
@[simp] theorem setUart_fault : (s.setUart n u).fault = s.fault := by cases n <;> rfl
@[simp] theorem setUart_ml : (s.setUart n u).ml = s.ml := by cases n <;> rfl
@[simp] theorem setUart_program : (s.setUart n u).program = s.program := by cases n <;> rfl
@[simp] theorem setUart_resps : (s.setUart n u).resps = s.resps := by cases n <;> rfl
@[simp] theorem setUart_agenda : (s.setUart n u).agenda = s.agenda := by cases n <;> rfl
@[simp] theorem setUart_tick : (s.setUart n u).tick = s.tick := by cases n <;> rfl
@[simp] theorem setUart_params : (s.setUart n u).params k = s.params k := by cases n <;> rfl

@[simp] theorem setUart_uart : s.setUart n (s.uart n) = s := by cases n <;> rfl

@[simp] theorem setUart_setUart : (s.setUart n u).setUart n v = s.setUart n v := by cases n <;> rfl

theorem setUart_comm : (s.setUart n u).setUart n.other v = (s.setUart n.other v).setUart n u := by
  cases n <;> rfl

/-! ## setMl -/

@[simp] theorem setMl_uart (m : Mainline) : (s.setMl m).uart n = s.uart n := by cases n <;> rfl
@[simp] theorem setMl_params (m : Mainline) : (s.setMl m).params n = s.params n := rfl
@[simp] theorem setMl_cfg (m : Mainline) : (s.setMl m).cfg = s.cfg := rfl
@[simp] theorem setMl_fault (m : Mainline) : (s.setMl m).fault = s.fault := rfl
@[simp] theorem setMl_ml (m : Mainline) : (s.setMl m).ml = m := rfl
@[simp] theorem setMl_program (m : Mainline) : (s.setMl m).program = s.program := rfl
@[simp] theorem setMl_resps (m : Mainline) : (s.setMl m).resps = s.resps := rfl
@[simp] theorem setMl_agenda (m : Mainline) : (s.setMl m).agenda = s.agenda := rfl
@[simp] theorem setMl_tick (m : Mainline) : (s.setMl m).tick = s.tick := rfl

theorem setMl_setUart (m : Mainline) : (s.setMl m).setUart n u = (s.setUart n u).setMl m := by
  cases n <;> rfl

/-! ## respond -/

@[simp] theorem respond_uart (w : Word) : (respond w s).uart n = s.uart n := by cases n <;> rfl
@[simp] theorem respond_params (w : Word) : (respond w s).params n = s.params n := rfl
@[simp] theorem respond_cfg (w : Word) : (respond w s).cfg = s.cfg := rfl
@[simp] theorem respond_fault (w : Word) : (respond w s).fault = s.fault := rfl
@[simp] theorem respond_ml (w : Word) : (respond w s).ml = .idle := rfl
@[simp] theorem respond_program (w : Word) : (respond w s).program = s.program := rfl
@[simp] theorem respond_resps (w : Word) : (respond w s).resps = s.resps ++ [w] := rfl
@[simp] theorem respond_agenda (w : Word) : (respond w s).agenda = s.agenda := rfl
@[simp] theorem respond_tick (w : Word) : (respond w s).tick = s.tick := rfl

theorem respond_setUart (w : Word) : (respond w s).setUart n u = respond w (s.setUart n u) := by
  cases n <;> rfl

/-! ## raiseFault -/

section
variable (w : Opw) (c : FaultCode)

/-- Everything a raised fault can do (R122): nothing where a record is valid, else the record alone. -/
theorem raiseFault_eq : raiseFault w c s =
    { s with fault := if s.fault.valid then s.fault else ⟨true, faultNumber c, instField w, w⟩ } := by
  unfold raiseFault
  split <;> rfl

@[simp] theorem raiseFault_uart : (raiseFault w c s).uart n = s.uart n := by
  rw [raiseFault_eq]; cases n <;> rfl
@[simp] theorem raiseFault_cfg : (raiseFault w c s).cfg = s.cfg := by rw [raiseFault_eq]
@[simp] theorem raiseFault_params : (raiseFault w c s).params n = s.params n := by
  simp [State.params]
@[simp] theorem raiseFault_ml : (raiseFault w c s).ml = s.ml := by rw [raiseFault_eq]
@[simp] theorem raiseFault_program : (raiseFault w c s).program = s.program := by rw [raiseFault_eq]
@[simp] theorem raiseFault_resps : (raiseFault w c s).resps = s.resps := by rw [raiseFault_eq]
@[simp] theorem raiseFault_agenda : (raiseFault w c s).agenda = s.agenda := by rw [raiseFault_eq]
@[simp] theorem raiseFault_tick : (raiseFault w c s).tick = s.tick := by rw [raiseFault_eq]

theorem raiseFault_fault (h : s.fault.valid = false) :
    (raiseFault w c s).fault = ⟨true, faultNumber c, instField w, w⟩ := by
  rw [raiseFault_eq]; simp [h]

theorem raiseFault_setUart :
    raiseFault w c (s.setUart n u) = (raiseFault w c s).setUart n u := by
  unfold raiseFault
  rw [setUart_fault]
  split <;> cases n <;> rfl

theorem faultNumber_range : 1 ≤ (faultNumber c).toNat ∧ (faultNumber c).toNat ≤ 6 := by
  cases c <;> decide

end

/-! ## advance and takeRequest -/

@[simp] theorem advance_uart : (advance s).uart n = s.uart n := by cases n <;> rfl
@[simp] theorem advance_params : (advance s).params n = s.params n := rfl
@[simp] theorem advance_cfg : (advance s).cfg = s.cfg := rfl
@[simp] theorem advance_fault : (advance s).fault = s.fault := rfl
@[simp] theorem advance_ml : (advance s).ml = s.ml := rfl
@[simp] theorem advance_program : (advance s).program = s.program := rfl
@[simp] theorem advance_resps : (advance s).resps = s.resps := rfl
@[simp] theorem advance_agenda : (advance s).agenda = s.agenda.tail := rfl
@[simp] theorem advance_tick : (advance s).tick = s.tick + 1 := rfl

section
variable (rest : List Request)

@[simp] theorem takeRequest_uart : (takeRequest rest s).uart n = s.uart n := by cases n <;> rfl
@[simp] theorem takeRequest_params : (takeRequest rest s).params n = s.params n := rfl
@[simp] theorem takeRequest_cfg : (takeRequest rest s).cfg = s.cfg := rfl
@[simp] theorem takeRequest_fault : (takeRequest rest s).fault = s.fault := rfl
@[simp] theorem takeRequest_ml : (takeRequest rest s).ml = s.ml := rfl
@[simp] theorem takeRequest_program : (takeRequest rest s).program = rest := rfl
@[simp] theorem takeRequest_resps : (takeRequest rest s).resps = s.resps := rfl
@[simp] theorem takeRequest_agenda : (takeRequest rest s).agenda = s.agenda := rfl
@[simp] theorem takeRequest_tick : (takeRequest rest s).tick = s.tick := rfl

end

/-! ## reset -/

section
variable (c : Config) (a b : List Byte) (p : List Request)

@[simp] theorem resetWith_cfg : (State.resetWith c a b p).cfg = c := rfl
@[simp] theorem resetWith_params : (State.resetWith c a b p).params n = c.inst n := rfl
@[simp] theorem resetWith_ml : (State.resetWith c a b p).ml = .idle := rfl
@[simp] theorem resetWith_fault : (State.resetWith c a b p).fault = FaultRecord.clear := rfl
@[simp] theorem resetWith_program : (State.resetWith c a b p).program = p := rfl

/-- Each instance is at reset, under its own parameters. -/
theorem resetWith_uart : ∃ wire, (State.resetWith c a b p).uart n = Uart.reset (c.inst n) wire := by
  cases n
  · exact ⟨a, rfl⟩
  · exact ⟨b, rfl⟩

end

end Sys2Proof.Machine
end

