-- ==== Sys2Proof/Laws/Meanings.lean ====
section
/-! SUPPORT. One inversion lemma per meaning: everything it can do where it answers a next state. Provers
cite these instead of unfolding the meanings. -/

namespace Sys2Proof.Machine

variable {s t : State} {n : Inst}

/-! ## The checks -/

theorem channelCheck_none {mode : ChanMode} :
    channelCheck s n mode = none ↔ InMode s n mode := by
  unfold channelCheck InMode
  by_cases h1 : (s.uart n).life = .running <;> by_cases h2 : (s.params n).mode = mode <;> simp [h1, h2]

theorem channelCheck_badState {mode : ChanMode} :
    channelCheck s n mode = some .badState ↔ (s.uart n).life ≠ .running := by
  unfold channelCheck
  by_cases h1 : (s.uart n).life = .running <;> by_cases h2 : (s.params n).mode = mode <;> simp [h1, h2]

theorem channelCheck_badMode {mode : ChanMode} :
    channelCheck s n mode = some .badMode ↔
      (s.uart n).life = .running ∧ (s.params n).mode ≠ mode := by
  unfold channelCheck
  by_cases h1 : (s.uart n).life = .running <;> by_cases h2 : (s.params n).mode = mode <;> simp [h1, h2]

theorem channelCheck_congr {s' : State} (mode : ChanMode) (h : s'.uart n = s.uart n)
    (hp : s'.params n = s.params n) : channelCheck s' n mode = channelCheck s n mode := by
  unfold channelCheck; rw [h, hp]

theorem raiseFor_next {i : Instr} {c : FaultCode} :
    raiseFor i c s = .next t ↔ t = raiseFault (encode i).opw c s := by
  simp [raiseFor, eq_comm]

/-! ## The requests of one step -/

theorem execCalc_next {clk baud : Word} (h : execCalc clk baud s = .next t) :
    (∃ e, rateCalc clk baud = .error e ∧ t = raiseFault (encode (.calcDiv clk baud)).opw e s) ∨
    ∃ d f, rateCalc clk baud = .ok (d, f) ∧ t = respond (ratePair d f) s := by
  unfold execCalc at h
  split at h
  · rename_i e he
    exact .inl ⟨e, he, raiseFor_next.1 h⟩
  · rename_i d f hdf
    cases h
    exact .inr ⟨d, f, hdf, rfl⟩

theorem execInit_next {baud : Word} (h : execInit n baud s = .next t) :
    ((s.uart n).life ≠ .uninit ∧ t = raiseFault (encode (.init n baud)).opw .badState s) ∨
    (∃ e, (s.uart n).life = .uninit ∧ rateCalc (s.params n).moduleClockHz baud = .error e ∧
      t = raiseFault (encode (.init n baud)).opw e s) ∨
    ∃ d f, (s.uart n).life = .uninit ∧ rateCalc (s.params n).moduleClockHz baud = .ok (d, f) ∧
      t = respond (ratePair d f) (s.setUart n (configure (s.uart n) baud d f)) := by
  unfold execInit at h
  dsimp only at h
  split at h
  · rename_i hl
    exact .inl ⟨hl, raiseFor_next.1 h⟩
  · rename_i hl
    have hl : (s.uart n).life = .uninit := by simpa using hl
    split at h
    · rename_i e he
      exact .inr (.inl ⟨e, hl, he, raiseFor_next.1 h⟩)
    · rename_i d f hdf
      cases h
      exact .inr (.inr ⟨d, f, hl, hdf, rfl⟩)

theorem execStart_next (h : execStart n s = .next t) :
    (((s.uart n).life ≠ .configured ∨ (s.uart n).prdy = false) ∧
      t = raiseFault (encode (.start n)).opw .badState s) ∨
    ((s.uart n).life = .configured ∧ (s.uart n).prdy = true ∧
      t = respond 0#32 (s.setUart n (enable (s.params n).mode (s.uart n)))) := by
  unfold execStart at h
  dsimp only at h
  split at h
  · rename_i hl
    exact .inl ⟨.inl hl, raiseFor_next.1 h⟩
  · rename_i hl
    split at h
    · rename_i hp
      exact .inl ⟨.inr hp, raiseFor_next.1 h⟩
    · rename_i hp
      cases h
      exact .inr ⟨by simpa using hl, by simpa using hp, rfl⟩

theorem execStat_next {sel : Byte} (h : execStat n sel s = .next t) :
    (∃ v, image s n sel = some v ∧ t = respond v s) ∨
    (image s n sel = none ∧ t = raiseFault (encode (.stat n sel)).opw .illegalOp s) := by
  unfold execStat at h
  split at h
  · rename_i v hv
    cases h
    exact .inl ⟨v, hv, rfl⟩
  · rename_i hv
    exact .inr ⟨hv, raiseFor_next.1 h⟩

/-! ## M1 of the requests of several steps -/

theorem execPut_next {b : Byte} (h : execPut n b s = .next t) :
    (∃ e, channelCheck s n .queued = some e ∧ t = raiseFault (encode (.put n b)).opw e s) ∨
    (InMode s n .queued ∧ nextSlot (s.params n).capTx (s.uart n).twr = (s.uart n).trd ∧
      t = respond 0#32 s) ∨
    (InMode s n .queued ∧ nextSlot (s.params n).capTx (s.uart n).twr ≠ (s.uart n).trd ∧
      t = s.setMl (.putM2 n (s.uart n).twr b)) := by
  unfold execPut at h
  dsimp only at h
  split at h
  · rename_i e he
    exact .inl ⟨e, he, raiseFor_next.1 h⟩
  · rename_i hc
    have hm := channelCheck_none.1 hc
    split at h <;> rename_i hf <;> cases h <;> simp only [isFull, decide_eq_true_eq] at hf
    · exact .inr (.inl ⟨hm, hf, rfl⟩)
    · exact .inr (.inr ⟨hm, hf, rfl⟩)

theorem execGet_next (h : execGet n s = .next t) :
    (∃ e, channelCheck s n .queued = some e ∧ t = raiseFault (encode (.get n)).opw e s) ∨
    (InMode s n .queued ∧ (s.uart n).rwr = (s.uart n).rrd ∧ t = respond 0#32 s) ∨
    (InMode s n .queued ∧ (s.uart n).rwr ≠ (s.uart n).rrd ∧
      t = s.setMl (.getM2 n (s.uart n).rrd)) := by
  unfold execGet at h
  dsimp only at h
  split at h
  · rename_i e he
    exact .inl ⟨e, he, raiseFor_next.1 h⟩
  · rename_i hc
    have hm := channelCheck_none.1 hc
    split at h <;> rename_i hf <;> cases h <;> simp only [isEmpty, decide_eq_true_eq] at hf
    · exact .inr (.inl ⟨hm, hf, rfl⟩)
    · exact .inr (.inr ⟨hm, hf, rfl⟩)

theorem execBput_next {b : Byte} (h : execBput n b s = .next t) :
    (∃ e, channelCheck s n .polled = some e ∧ t = raiseFault (encode (.bput n b)).opw e s) ∨
    (InMode s n .polled ∧ t = s.setMl (.bputM2 n b)) := by
  unfold execBput at h
  split at h
  · rename_i e he
    exact .inl ⟨e, he, raiseFor_next.1 h⟩
  · rename_i hc
    cases h
    exact .inr ⟨channelCheck_none.1 hc, rfl⟩

theorem execBget_next (h : execBget n s = .next t) :
    (∃ e, channelCheck s n .polled = some e ∧ t = raiseFault (encode (.bget n)).opw e s) ∨
    (InMode s n .polled ∧ t = s.setMl (.bgetM2 n)) := by
  unfold execBget at h
  split at h
  · rename_i e he
    exact .inl ⟨e, he, raiseFor_next.1 h⟩
  · rename_i hc
    cases h
    exact .inr ⟨channelCheck_none.1 hc, rfl⟩

/-! ## The later steps -/

theorem putWrite_next {w : Nat} {b : Byte} (h : putWrite n w b s = .next t) :
    w < (s.params n).capTx ∧
    t = (s.setUart n { s.uart n with bufT := (s.uart n).bufT.write w b }).setMl (.putM3 n w b) := by
  unfold putWrite at h
  dsimp only at h
  split at h
  · cases h
  · rename_i m hm
    cases h
    obtain ⟨hw, rfl⟩ := writeSlot_ok.1 hm
    exact ⟨hw, rfl⟩

theorem getRead_next {r : Nat} (h : getRead n r s = .next t) :
    ∃ v, r < (s.params n).capRx ∧ (s.uart n).bufR.read r = some v ∧ t = s.setMl (.getM3 n r v) := by
  unfold getRead at h
  split at h
  · cases h
  · rename_i v hv
    cases h
    obtain ⟨hr, hv⟩ := readSlot_ok.1 hv
    exact ⟨v, hr, hv, rfl⟩

theorem bgetRead_next (h : bgetRead n s = .next t) :
    ∃ v, (s.uart n).rdr = some v ∧
      t = respond (byteResponse v) (s.setUart n { s.uart n with rdrf := false }) := by
  unfold bgetRead at h
  split at h
  · cases h
  · rename_i v hv
    cases h
    exact ⟨v, readData_ok.1 hv, rfl⟩

/-! ## The entry points -/

theorem execTxi_next (h : execTxi n s = .next t) :
    ((s.uart n).twr = (s.uart n).trd ∧
      t = s.setUart n (disarmIfEmpty s.cfg.txIdlePolicy (s.uart n))) ∨
    ∃ b, (s.uart n).twr ≠ (s.uart n).trd ∧ (s.uart n).trd < (s.params n).capTx ∧
      (s.uart n).bufT.read (s.uart n).trd = some b ∧
      t = s.setUart n (disarmIfEmpty s.cfg.txIdlePolicy
        { s.uart n with tdr := some b, tdre := false, trd := nextSlot (s.params n).capTx (s.uart n).trd }) := by
  unfold execTxi txSend at h
  dsimp only at h
  split at h
  · rename_i he
    cases h
    exact .inl ⟨by simpa [isEmpty] using he, rfl⟩
  · rename_i he
    split at h
    · cases h
    · rename_i u' hu
      cases h
      split at hu
      · cases hu
      · rename_i b hb
        cases hu
        obtain ⟨hr, hb⟩ := readSlot_ok.1 hb
        exact .inr ⟨b, by simpa [isEmpty] using he, hr, hb, rfl⟩

theorem execRxi_next (h : execRxi n s = .next t) :
    ∃ v, (s.uart n).rdr = some v ∧
    ((nextSlot (s.params n).capRx (s.uart n).rwr = (s.uart n).rrd ∧
      t = s.setUart n { s.uart n with rdrf := false, rxdrop := (s.uart n).rxdrop + 1#32 }) ∨
    (nextSlot (s.params n).capRx (s.uart n).rwr ≠ (s.uart n).rrd ∧
      (s.uart n).rwr < (s.params n).capRx ∧
      t = s.setUart n { s.uart n with
        rdrf := false, bufR := (s.uart n).bufR.write (s.uart n).rwr v,
        rwr := nextSlot (s.params n).capRx (s.uart n).rwr })) := by
  unfold execRxi rxStore at h
  dsimp only at h
  split at h
  · cases h
  · rename_i v hv
    refine ⟨v, readData_ok.1 hv, ?_⟩
    split at h
    · rename_i hf
      cases h
      exact .inl ⟨by simpa [isFull] using hf, rfl⟩
    · rename_i hf
      split at h
      · cases h
      · rename_i u2 hu
        cases h
        split at hu
        · cases hu
        · rename_i m hm
          cases hu
          obtain ⟨hw, rfl⟩ := writeSlot_ok.1 hm
          exact .inr ⟨by simpa [isFull] using hf, hw, rfl⟩

/-- What disarming leaves: TIE alone may change, to 0, and only over an empty queue under DISARM. -/
theorem disarmIfEmpty_eq (p : TxIdlePolicy) (u : Uart) :
    disarmIfEmpty p u = { u with tie := u.tie && !(decide (p = .disarm) && decide (u.twr = u.trd)) } := by
  cases p
  · by_cases h : u.twr = u.trd
    · simp [disarmIfEmpty, isEmpty, h]
    · simp [disarmIfEmpty, isEmpty, h]
  · simp [disarmIfEmpty]

/-! ## The Line steps -/

theorem lineTransmit_next (h : lineTransmit n s = .next t) :
    ∃ b, (s.uart n).tdr = some b ∧
      t = s.setUart n { s.uart n with wireOut := (s.uart n).wireOut ++ [b], tdre := true } := by
  unfold lineTransmit at h
  dsimp only at h
  split at h
  · cases h
  · rename_i b hb
    cases h
    exact ⟨b, readData_ok.1 hb, rfl⟩

theorem lineReceive_next (h : lineReceive n s = .next t) :
    ((s.uart n).wireIn = [] ∧ t = s) ∨
    ∃ v rest, (s.uart n).wireIn = v :: rest ∧
      t = s.setUart n (receive v { s.uart n with wireIn := rest }) := by
  unfold lineReceive at h
  dsimp only at h
  split at h
  · rename_i hw
    cases h
    exact .inl ⟨hw, rfl⟩
  · rename_i v rest hw
    cases h
    exact .inr ⟨v, rest, hw, rfl⟩

/-- The three things an arriving byte can do (R118). -/
theorem receive_cases (v : Byte) (u : Uart) :
    (u.re = false ∧ receive v u = u) ∨
    (u.re = true ∧ u.rdrf = false ∧ receive v u = { u with rdr := some v, rdrf := true }) ∨
    (u.re = true ∧ u.rdrf = true ∧ receive v u = { u with ovr := true }) := by
  unfold receive
  cases u.re <;> cases u.rdrf <;> simp

end Sys2Proof.Machine
end

