-- ==== Sys2Proof/Laws/Queue.lean ====
section
/-! SUPPORT. Cursor arithmetic (R33) and the contents of a queue under each thing a step does to one. -/

namespace Sys2Proof.Machine

/-- What R7 says of a capacity the core admits. -/
theorem capacityOk_bounds {C : Nat} (h : capacityOk C = true) : 2 ≤ C ∧ C ≤ 256 := by
  simp only [capacityOk, List.contains_cons, List.contains_nil, Bool.or_false, Bool.or_eq_true,
    beq_iff_eq] at h
  omega

theorem nextSlot_eq {C c : Nat} (h : c < C) : nextSlot C c = if c + 1 = C then 0 else c + 1 := by
  unfold nextSlot
  split
  · rename_i h'; rw [h', Nat.mod_self]
  · exact Nat.mod_eq_of_lt (by omega)

theorem nextSlot_lt {C c : Nat} (h : 0 < C) : nextSlot C c < C := Nat.mod_lt _ h

/-- The successor of a slot is another slot. -/
theorem nextSlot_ne {C c : Nat} (hC : 2 ≤ C) (h : c < C) : nextSlot C c ≠ c := by
  rw [nextSlot_eq h]; split <;> omega

theorem nextSlot_inj {C a b : Nat} (ha : a < C) (hb : b < C) (h : nextSlot C a = nextSlot C b) :
    a = b := by
  rw [nextSlot_eq ha, nextSlot_eq hb] at h
  split at h <;> split at h <;> omega

/-- The occupancy of R33, without the integers. -/
theorem occupancy_eq {C w r : Nat} (hw : w < C) (hr : r < C) :
    occupancy C w r = if r ≤ w then w - r else w + C - r := by
  unfold occupancy
  split
  · rw [Int.emod_eq_of_lt (by omega) (by omega)]; omega
  · rw [← Int.add_emod_right, Int.emod_eq_of_lt (by omega) (by omega)]; omega

theorem occupancy_lt {C w r : Nat} (hw : w < C) (hr : r < C) : occupancy C w r < C := by
  rw [occupancy_eq hw hr]; split <;> omega

/-- A queue is empty exactly where its occupancy is 0. -/
theorem occupancy_zero_iff {C w r : Nat} (hw : w < C) (hr : r < C) :
    occupancy C w r = 0 ↔ w = r := by
  rw [occupancy_eq hw hr]; split <;> omega

/-- A queue is full exactly where its occupancy is C-1. -/
theorem occupancy_full_iff {C w r : Nat} (hw : w < C) (hr : r < C) :
    occupancy C w r = C - 1 ↔ nextSlot C w = r := by
  rw [occupancy_eq hw hr, nextSlot_eq hw]; split <;> split <;> omega

/-- Taking a byte lowers the occupancy by one. -/
theorem occupancy_read {C w r : Nat} (hw : w < C) (hr : r < C) (h : r ≠ w) :
    occupancy C w r = occupancy C w (nextSlot C r) + 1 := by
  have hn : nextSlot C r < C := nextSlot_lt (by omega)
  rw [occupancy_eq hw hr, occupancy_eq hw hn, nextSlot_eq hr]
  split <;> split <;> split <;> omega

/-- Publishing a byte raises the occupancy by one. -/
theorem occupancy_write {C w r : Nat} (hw : w < C) (hr : r < C) (h : nextSlot C w ≠ r) :
    occupancy C (nextSlot C w) r = occupancy C w r + 1 := by
  have hn : nextSlot C w < C := nextSlot_lt (by omega)
  rw [occupancy_eq hn hr, occupancy_eq hw hr]
  rw [nextSlot_eq hw] at h ⊢
  split_ifs at h ⊢ <;> omega

/-! ## The slots from a cursor on -/

/-- The `j`-th slot from `r` on, without the `mod`. -/
theorem slotsFrom_succ_right (C : Nat) (m : Memory) (r k : Nat) (hr : r < C) (hk : k < C) :
    slotsFrom C m r (k + 1) = slotsFrom C m r k ++ [m.read ((r + k) % C)] := by
  induction k generalizing r with
  | zero => simp [slotsFrom, Nat.mod_eq_of_lt hr]
  | succ k ih =>
    have hn : nextSlot C r < C := nextSlot_lt (by omega)
    rw [slotsFrom, ih (nextSlot C r) hn (by omega), slotsFrom]
    have : (nextSlot C r + k) % C = (r + (k + 1)) % C := by
      simp only [nextSlot, Nat.mod_add_mod]; congr 1; omega
    rw [this]; rfl

/-- A slot outside the ones listed may be written: the listing is as before. -/
theorem slotsFrom_write (C : Nat) (m : Memory) (r k j : Nat) (v : Byte) (hr : r < C) (hk : k ≤ C)
    (h : ∀ i < k, (r + i) % C ≠ j) : slotsFrom C (m.write j v) r k = slotsFrom C m r k := by
  induction k generalizing r with
  | zero => rfl
  | succ k ih =>
    have hn : nextSlot C r < C := nextSlot_lt (by omega)
    have h0 : r ≠ j := by simpa [Nat.mod_eq_of_lt hr] using h 0 (by omega)
    rw [slotsFrom, slotsFrom, Memory.read_write_other m v h0, ih _ hn (by omega)]
    intro i hi
    have : (nextSlot C r + i) % C = (r + (i + 1)) % C := by
      simp only [nextSlot, Nat.mod_add_mod]; congr 1; omega
    rw [this]
    exact h (i + 1) (by omega)

/-- The slot at the write cursor is the one after the last of the queue. -/
theorem slot_at_occupancy {C w r : Nat} (hw : w < C) (hr : r < C) :
    (r + occupancy C w r) % C = w := by
  rw [occupancy_eq hw hr]
  split
  · rw [Nat.add_sub_cancel' (by assumption), Nat.mod_eq_of_lt hw]
  · rw [show r + (w + C - r) = w + C by omega, Nat.add_mod_right, Nat.mod_eq_of_lt hw]

/-- No slot of the queue is the slot at the write cursor. -/
theorem slot_ne_write {C w r i : Nat} (hw : w < C) (hr : r < C) (hi : i < occupancy C w r) :
    (r + i) % C ≠ w := by
  rw [occupancy_eq hw hr] at hi
  split at hi
  · rw [Nat.mod_eq_of_lt (by omega)]; omega
  · by_cases hc : r + i < C
    · rw [Nat.mod_eq_of_lt hc]; omega
    · rw [Nat.mod_eq_sub_mod (by omega), Nat.mod_eq_of_lt (by omega)]; omega

/-- The slot at the write cursor written: the queue holds what it held. -/
theorem queue_write_slot {C w r : Nat} (m : Memory) (v : Byte) (hw : w < C) (hr : r < C) :
    slotsFrom C (m.write w v) r (occupancy C w r) = slotsFrom C m r (occupancy C w r) :=
  slotsFrom_write C m r _ w v hr (Nat.le_of_lt (occupancy_lt hw hr)) fun _ hi => slot_ne_write hw hr hi

/-- The write cursor published: the byte in its slot joins the queue at the back. -/
theorem queue_publish {C w r : Nat} (m : Memory) (hw : w < C) (hr : r < C) (h : nextSlot C w ≠ r) :
    slotsFrom C m r (occupancy C (nextSlot C w) r) =
      slotsFrom C m r (occupancy C w r) ++ [m.read w] := by
  rw [occupancy_write hw hr h, slotsFrom_succ_right C m r _ hr (occupancy_lt hw hr),
    slot_at_occupancy hw hr]

/-- The queue with its front byte apart. -/
theorem queue_front {C w r : Nat} (m : Memory) (hw : w < C) (hr : r < C) (h : r ≠ w) :
    slotsFrom C m r (occupancy C w r) =
      m.read r :: slotsFrom C m (nextSlot C r) (occupancy C w (nextSlot C r)) := by
  rw [occupancy_read hw hr h, slotsFrom]

/-- An empty queue holds nothing. -/
theorem queue_empty {C c : Nat} (m : Memory) (h : c < C) : slotsFrom C m c (occupancy C c c) = [] := by
  rw [(occupancy_zero_iff h h).2 rfl, slotsFrom]

end Sys2Proof.Machine
end

