-- ==== Sys2Proof/Laws/Step.lean ====
section
/-! SUPPORT. What one step of the machine can be: the move chosen has a step, and the step is that move's. -/

namespace Sys2Proof.Machine

variable {s t : State}

theorem mem_allMoves (m : Move) : m ∈ allMoves := by
  cases m with
  | main => decide
  | irq n => cases n <;> decide
  | ltx n => cases n <;> decide
  | lrx n => cases n <;> decide

@[simp] theorem mem_enabledMoves {m : Move} : m ∈ enabledMoves s ↔ enabled s m = true := by
  simp [enabledMoves, mem_allMoves]

/-- A pick is one of the moves it picks from. -/
theorem pick_mem (m : Move) (ms : List Move) : pick s m ms ∈ m :: ms := by
  have free : ∀ k, (m :: ms).getD k m ∈ m :: ms := by
    intro k
    rw [List.getD_eq_getElem?_getD]
    cases hk : (m :: ms)[k]? with
    | none => simp
    | some x => simpa using List.mem_of_getElem? hk
  unfold pick
  split
  · split
    · assumption
    · exact free _
  · exact free _

/-- The move taken is one that has a step. -/
theorem choose_enabled {m : Move} (h : choose s = some m) : enabled s m = true := by
  rw [← mem_enabledMoves]
  unfold choose at h
  split at h
  · cases h
  · rename_i a ha
    cases h
    simp [ha]
  · rename_i a b ms ha
    cases h
    rw [ha]
    exact pick_mem _ _

/-- Whether a move has a step does not hang on the agenda. -/
theorem enabledMoves_agenda (a : List Move) : enabledMoves { s with agenda := a } = enabledMoves s := rfl

/-- Everything a step that answers a next state can be (R50 to R53, R55). -/
theorem step_next (h : step s = .next t) :
    configOk s.cfg = true ∧ ∃ m, choose s = some m ∧ enabled s m = true ∧
      runMove m (advance s) = .next t := by
  unfold step stepMachine at h
  split at h
  · rename_i hc
    refine ⟨hc, ?_⟩
    split at h
    · cases h
    · rename_i m hm
      exact ⟨m, hm, choose_enabled hm, h⟩
  · cases h

/-- A step under an admitted configuration is the chosen move's. -/
theorem step_of_choose {m : Move} (hc : configOk s.cfg = true) (h : choose s = some m) :
    step s = runMove m (advance s) := by
  simp [step, stepMachine, hc, h]

/-- A move that has a step finds the fault record clear of a fault (R51). -/
theorem enabled_fault {m : Move} (h : enabled s m = true) : s.fault.valid = false := by
  simp only [enabled, Bool.and_eq_true, Bool.not_eq_true'] at h
  exact h.1

/-- Everything a mainline step can be (R53, R69). -/
theorem runMain_next (h : runMain s = .next t) :
    (∃ r rest e, s.ml = .idle ∧ s.program = r :: rest ∧ decodeMainline r = .error e ∧
      t = rejectRequest r (takeRequest rest s)) ∨
    (∃ r rest i, s.ml = .idle ∧ s.program = r :: rest ∧ decodeMainline r = .ok i ∧
      exec i (takeRequest rest s) = .next t) ∨
    (s.ml ≠ .idle ∧ resume s = .next t) := by
  unfold runMain at h
  split at h
  · cases h
  · rename_i r rest hml hp
    split at h
    · rename_i e he
      cases h
      exact .inl ⟨r, rest, e, hml, hp, he, rfl⟩
    · rename_i i hi
      exact .inr (.inl ⟨r, rest, i, hml, hp, hi, h⟩)
  · rename_i h1 h2
    refine .inr (.inr ⟨?_, h⟩)
    intro hidle
    cases hp : s.program with
    | nil => exact h1 hidle hp
    | cons r rest => exact h2 r rest hidle hp

/-- A request in progress: the mainline's step is the one ML names. -/
theorem runMain_of_busy (h : s.ml ≠ .idle) : runMain s = resume s := by
  unfold runMain
  split
  · rename_i h1 _; exact absurd h1 h
  · rename_i h1 _; exact absurd h1 h
  · rfl

/-- The mainline program never sees an entry point run: what it offers decodes to something else (R70 f). -/
theorem decodeMainline_ok {r : Request} {i : Instr} :
    decodeMainline r = .ok i ↔ decode r = .ok i ∧ i.isEntryPoint = false := by
  unfold decodeMainline
  split
  · simp [*]
  · rename_i j hj
    cases hj' : j.isEntryPoint <;> simp [hj]
    · rintro rfl; exact hj'
    · rintro rfl; exact hj'

end Sys2Proof.Machine
end

