-- ==== Sys2Proof/Laws/Effect.lean ====
section
/-! SUPPORT. What one step of the machine can do to one instance, case by case: the inversion lemma the
proofs about cursors, flags, lifecycle and rate fields cite. -/

namespace Sys2Proof.Machine

/-- The chosen move's step, where the machine's step answers a next state. -/
theorem step_chosen {s t : State} {m : Move} (hm : choose s = some m) (hs : step s = .next t) :
    configOk s.cfg = true ∧ enabled s m = true ∧ runMove m (advance s) = .next t := by
  obtain ⟨hc, m', h, he, hr⟩ := step_next hs
  rw [hm] at h
  cases h
  exact ⟨hc, he, hr⟩

/-- The interrupt step in terms of the two entry points (R128 b). -/
theorem exec_arbitrate {s : State} {n : Inst} :
    exec (arbitrate s n) s = if rxIrq (s.uart n) then execRxi n s else execTxi n s := by
  unfold arbitrate; split <;> rfl

/-- What the step of move `m` from `s` to `t` does to instance `n`. -/
inductive UartEffect (s : State) (m : Move) (n : Inst) (t : State) : Prop
  | unchanged (hm : m ≠ .irq n) (h : t.uart n = s.uart n)
  | configured (hm : m = .main) (hml : s.ml = .idle) (r : Request) (rest : List Request) (baud : Word)
      (hp : s.program = r :: rest) (hd : decode r = .ok (.init n baud)) (d : BitVec 13) (f : BitVec 5)
      (hl : (s.uart n).life = .uninit)
      (hr : rateCalc (s.params n).moduleClockHz baud = .ok (d, f))
      (h : t.uart n = configure (s.uart n) baud d f)
  | enabled (hm : m = .main) (hml : s.ml = .idle) (r : Request) (rest : List Request)
      (hp : s.program = r :: rest) (hd : decode r = .ok (.start n))
      (hl : (s.uart n).life = .configured) (h : t.uart n = enable (s.params n).mode (s.uart n))
  | slotWritten (w : Nat) (b : Byte) (hm : m = .main) (hml : s.ml = .putM2 n w b)
      (h : t.uart n = { s.uart n with bufT := (s.uart n).bufT.write w b })
  | published (w : Nat) (b : Byte) (hm : m = .main) (hml : s.ml = .putM3 n w b)
      (h : t.uart n = { s.uart n with twr := nextSlot (s.params n).capTx w })
  | armed (w : Nat) (b : Byte) (hm : m = .main) (hml : s.ml = .putM4 n w b)
      (h : t.uart n = { s.uart n with tie := true })
  | consumed (r : Nat) (v : Byte) (hm : m = .main) (hml : s.ml = .getM3 n r v)
      (h : t.uart n = { s.uart n with rrd := nextSlot (s.params n).capRx r })
  | polledWrite (b : Byte) (hm : m = .main) (hml : s.ml = .bputM2 n b)
      (h : t.uart n = { s.uart n with tdr := some b, tdre := false })
  | polledRead (hm : m = .main) (hml : s.ml = .bgetM2 n)
      (h : t.uart n = { s.uart n with rdrf := false })
  | txEmpty (hm : m = .irq n) (hx : rxIrq (s.uart n) = false) (he : (s.uart n).twr = (s.uart n).trd)
      (h : t.uart n = disarmIfEmpty s.cfg.txIdlePolicy (s.uart n))
  | txSent (hm : m = .irq n) (hx : rxIrq (s.uart n) = false) (b : Byte)
      (he : (s.uart n).twr ≠ (s.uart n).trd)
      (h : t.uart n = disarmIfEmpty s.cfg.txIdlePolicy { s.uart n with
        tdr := some b, tdre := false, trd := nextSlot (s.params n).capTx (s.uart n).trd })
  | rxDropped (hm : m = .irq n) (hx : rxIrq (s.uart n) = true)
      (h : t.uart n = { s.uart n with rdrf := false, rxdrop := (s.uart n).rxdrop + 1#32 })
  | rxStored (hm : m = .irq n) (hx : rxIrq (s.uart n) = true) (v : Byte)
      (h : t.uart n = { s.uart n with
        rdrf := false, bufR := (s.uart n).bufR.write (s.uart n).rwr v,
        rwr := nextSlot (s.params n).capRx (s.uart n).rwr })
  | transmitted (hm : m = .ltx n) (b : Byte)
      (h : t.uart n = { s.uart n with wireOut := (s.uart n).wireOut ++ [b], tdre := true })
  | received (hm : m = .lrx n) (v : Byte) (rest : List Byte) (hw : (s.uart n).wireIn = v :: rest)
      (h : t.uart n = receive v { s.uart n with wireIn := rest })

/-- Everything one step can do to one instance, and that no step changes the configuration. -/
theorem step_effect {s t : State} {m : Move} (n : Inst) (hm : choose s = some m)
    (hs : step s = .next t) : UartEffect s m n t ∧ t.cfg = s.cfg := by
  obtain ⟨hcf, hen, hrun⟩ := step_chosen hm hs
  cases m with
  | main =>
    rcases runMain_next hrun with ⟨r, rest, e, h1, h2, h3, rfl⟩ | ⟨r, rest, i, h1, h2, h3, h4⟩ | ⟨h1, h2⟩
    · exact ⟨.unchanged (by simp) (by simp [rejectRequest]), by simp [rejectRequest]⟩
    · have hi := decodeMainline_ok.1 h3
      simp only [advance_ml, advance_program] at h1 h2
      cases i with
      | calcDiv clk baud =>
        rcases execCalc_next h4 with ⟨e, _, rfl⟩ | ⟨d, f, _, rfl⟩ <;>
          exact ⟨.unchanged (by simp) (by simp), by simp⟩
      | stat k sel =>
        rcases execStat_next h4 with ⟨v, _, rfl⟩ | ⟨_, rfl⟩ <;>
          exact ⟨.unchanged (by simp) (by simp), by simp⟩
      | put k b =>
        rcases execPut_next h4 with ⟨e, _, rfl⟩ | ⟨_, _, rfl⟩ | ⟨hm, hn, rfl⟩ <;>
          exact ⟨.unchanged (by simp) (by simp), by simp⟩
      | get k =>
        rcases execGet_next h4 with ⟨e, _, rfl⟩ | ⟨_, _, rfl⟩ | ⟨hm, hn, rfl⟩ <;>
          exact ⟨.unchanged (by simp) (by simp), by simp⟩
      | bput k b =>
        rcases execBput_next h4 with ⟨e, _, rfl⟩ | ⟨hm, rfl⟩ <;>
          exact ⟨.unchanged (by simp) (by simp), by simp⟩
      | bget k =>
        rcases execBget_next h4 with ⟨e, _, rfl⟩ | ⟨hm, rfl⟩ <;>
          exact ⟨.unchanged (by simp) (by simp), by simp⟩
      | txi k => cases hi.2
      | rxi k => cases hi.2
      | start k =>
        rcases execStart_next h4 with ⟨_, rfl⟩ | ⟨hl, hp, rfl⟩
        · exact ⟨.unchanged (by simp) (by simp), by simp⟩
        · refine ⟨?_, by simp⟩
          by_cases hk : n = k
          · subst hk; exact .enabled rfl h1 _ _ h2 hi.1 (by simpa using hl) (by simp)
          · exact .unchanged (by simp) (by simp [uart_setUart_of_ne _ _ hk])
      | init k baud =>
        rcases execInit_next h4 with ⟨_, rfl⟩ | ⟨e, _, _, rfl⟩ | ⟨d, f, hl, hr, rfl⟩
        · exact ⟨.unchanged (by simp) (by simp), by simp⟩
        · exact ⟨.unchanged (by simp) (by simp), by simp⟩
        · refine ⟨?_, by simp⟩
          by_cases hk : n = k
          · subst hk; exact .configured rfl h1 _ _ _ h2 hi.1 d f (by simpa using hl) (by simpa using hr) (by simp)
          · exact .unchanged (by simp) (by simp [uart_setUart_of_ne _ _ hk])
    · simp only [advance_ml] at h1
      unfold resume at h2; rw [advance_ml] at h2
      cases hml : s.ml with
      | idle => exact absurd hml h1
      | putM2 k w b =>
        rw [hml] at h2; dsimp only at h2
        obtain ⟨hw, rfl⟩ := putWrite_next h2
        refine ⟨?_, by simp⟩
        by_cases hk : n = k
        · subst hk; exact .slotWritten w b rfl hml (by simp)
        · exact .unchanged (by simp) (by simp [uart_setUart_of_ne _ _ hk])
      | putM3 k w b =>
        rw [hml] at h2; dsimp only at h2; cases h2
        refine ⟨?_, by simp⟩
        by_cases hk : n = k
        · subst hk; exact .published w b rfl hml (by simp)
        · exact .unchanged (by simp) (by simp [uart_setUart_of_ne _ _ hk])
      | putM4 k w b =>
        rw [hml] at h2; dsimp only at h2; cases h2
        refine ⟨?_, by simp⟩
        by_cases hk : n = k
        · subst hk; exact .armed w b rfl hml (by simp)
        · exact .unchanged (by simp) (by simp [uart_setUart_of_ne _ _ hk])
      | getM2 k r =>
        rw [hml] at h2; dsimp only at h2; obtain ⟨v, hr', hv, rfl⟩ := getRead_next h2
        exact ⟨.unchanged (by simp) (by simp), by simp⟩
      | getM3 k r v =>
        rw [hml] at h2; dsimp only at h2; cases h2
        refine ⟨?_, by simp⟩
        by_cases hk : n = k
        · subst hk; exact .consumed r v rfl hml (by simp)
        · exact .unchanged (by simp) (by simp [uart_setUart_of_ne _ _ hk])
      | bputM2 k b =>
        rw [hml] at h2; dsimp only at h2; cases h2
        refine ⟨?_, by simp⟩
        by_cases hk : n = k
        · subst hk; exact .polledWrite b rfl hml (by simp)
        · exact .unchanged (by simp) (by simp [uart_setUart_of_ne _ _ hk])
      | bgetM2 k =>
        rw [hml] at h2; dsimp only at h2; obtain ⟨v, hv, rfl⟩ := bgetRead_next h2
        refine ⟨?_, by simp⟩
        by_cases hk : n = k
        · subst hk; exact .polledRead rfl hml (by simp)
        · exact .unchanged (by simp) (by simp [uart_setUart_of_ne _ _ hk])
  | irq k =>
    simp only [runMove] at hrun
    rw [exec_arbitrate] at hrun
    simp only [advance_uart] at hrun
    by_cases hx : rxIrq (s.uart k) = true
    · rw [if_pos hx] at hrun
      obtain ⟨v, hv, ⟨hf, rfl⟩ | ⟨hf, hw, rfl⟩⟩ := execRxi_next hrun
      · refine ⟨?_, by simp⟩
        by_cases hk : n = k
        · subst hk; exact .rxDropped rfl hx (by simp)
        · exact .unchanged (by simp [Ne.symm hk]) (by simp [uart_setUart_of_ne _ _ hk])
      · refine ⟨?_, by simp⟩
        by_cases hk : n = k
        · subst hk; exact .rxStored rfl hx v (by simp)
        · exact .unchanged (by simp [Ne.symm hk]) (by simp [uart_setUart_of_ne _ _ hk])
    · rw [if_neg hx] at hrun
      have hx : rxIrq (s.uart k) = false := by simpa using hx
      rcases execTxi_next hrun with ⟨e, rfl⟩ | ⟨b, hne, hlt, hb, rfl⟩
      · refine ⟨?_, by simp⟩
        by_cases hk : n = k
        · subst hk; exact .txEmpty rfl hx (by simpa using e) (by simp)
        · exact .unchanged (by simp [Ne.symm hk]) (by simp [uart_setUart_of_ne _ _ hk])
      · refine ⟨?_, by simp⟩
        by_cases hk : n = k
        · subst hk; exact .txSent rfl hx b (by simpa using hne) (by simp)
        · exact .unchanged (by simp [Ne.symm hk]) (by simp [uart_setUart_of_ne _ _ hk])
  | ltx k =>
    obtain ⟨b, hb, rfl⟩ := lineTransmit_next hrun
    refine ⟨?_, by simp⟩
    by_cases hk : n = k
    · subst hk; exact .transmitted rfl b (by simp)
    · exact .unchanged (by simp) (by simp [uart_setUart_of_ne _ _ hk])
  | lrx k =>
    obtain ⟨_, rfl⟩ | ⟨v, rest, hw, rfl⟩ := lineReceive_next hrun
    · exact ⟨.unchanged (by simp) (by simp), by simp⟩
    · refine ⟨?_, by simp⟩
      by_cases hk : n = k
      · subst hk; exact .received rfl v rest (by simpa using hw) (by simp)
      · exact .unchanged (by simp) (by simp [uart_setUart_of_ne _ _ hk])

end Sys2Proof.Machine
end

