-- ==== Sys2Proof/Laws/Invariant.lean ====
section
/-! SUPPORT. How the machine's invariant is carried: what it asks of one instance and of the mainline's
position, and that an update which keeps those keeps the whole. -/

namespace Sys2Proof.Machine

/-- What the invariant asks of one instance alone. -/
def InstanceInv (c : InstConfig) (u : Uart) : Prop :=
  LifeInv c.mode u ∧ CursorInv c u ∧ StoreInv c u ∧ WrittenInv c u ∧ DataInv u ∧
    otherOf u.rate = c.rateOther

theorem uartInv_iff (s : State) (n : Inst) : UartInv s n ↔ InstanceInv (s.params n) (s.uart n) ∧
    WakeInv s.cfg.txIdlePolicy (s.params n) s.ml n (s.uart n) := by
  unfold UartInv InstanceInv; tauto

/-- The invariant from its parts. -/
theorem machineInv_of {s : State} (h1 : configOk s.cfg = true)
    (h2 : ∀ n, InstanceInv (s.params n) (s.uart n))
    (h3 : ∀ n, WakeInv s.cfg.txIdlePolicy (s.params n) s.ml n (s.uart n)) (h4 : MlInv s)
    (h5 : FaultInv s.fault) : MachineInv s :=
  ⟨h1, fun n => (uartInv_iff s n).2 ⟨h2 n, h3 n⟩, h4, h5⟩

/-- The parts of the invariant. -/
theorem machineInv_parts {s : State} (h : MachineInv s) : configOk s.cfg = true ∧
    (∀ n, InstanceInv (s.params n) (s.uart n)) ∧
    (∀ n, WakeInv s.cfg.txIdlePolicy (s.params n) s.ml n (s.uart n)) ∧ MlInv s ∧ FaultInv s.fault :=
  ⟨h.1, fun n => ((uartInv_iff s n).1 (h.2.1 n)).1,
    fun n => ((uartInv_iff s n).1 (h.2.1 n)).2, h.2.2.1, h.2.2.2⟩

/-- The invariant does not look at the program, the responses or the schedule. -/
theorem machineInv_congr {s t : State} (h : MachineInv s) (hc : t.cfg = s.cfg) (h0 : t.u0 = s.u0)
    (h1 : t.u1 = s.u1) (hf : t.fault = s.fault) (hm : t.ml = s.ml) : MachineInv t := by
  have hu : ∀ n, t.uart n = s.uart n := by intro n; cases n <;> assumption
  have hp : ∀ n, t.params n = s.params n := by intro n; unfold State.params; rw [hc]
  obtain ⟨a, b, c, d, e⟩ := machineInv_parts h
  refine machineInv_of (hc ▸ a) (fun n => by rw [hu, hp]; exact b n)
    (fun n => by rw [hu, hp, hc, hm]; exact c n) ?_ (hf ▸ e)
  revert d
  unfold MlInv InMode
  rw [hm]
  split <;> (try simp only [hu, hp]) <;> exact id

theorem machineInv_advance {s : State} (h : MachineInv s) : MachineInv (advance s) :=
  machineInv_congr h rfl rfl rfl rfl rfl

theorem machineInv_takeRequest {s : State} (h : MachineInv s) (rest : List Request) :
    MachineInv (takeRequest rest s) :=
  machineInv_congr h rfl rfl rfl rfl rfl

/-- One instance and the mainline's position changed. -/
theorem machineInv_setUart_ml {s t : State} (h : MachineInv s) (n : Inst) (u : Uart)
    (hc : t.cfg = s.cfg) (hu : ∀ k, t.uart k = (s.setUart n u).uart k) (hf : FaultInv t.fault)
    (hU : InstanceInv (s.params n) u) (hW : WakeInv s.cfg.txIdlePolicy (s.params n) t.ml n u)
    (hO : ∀ w b, s.ml = .putM4 n.other w b → t.ml = s.ml) (hM : MlInv t) : MachineInv t := by
  have hp : ∀ n, t.params n = s.params n := by intro n; unfold State.params; rw [hc]
  obtain ⟨a, b, c, d, e⟩ := machineInv_parts h
  refine machineInv_of (hc ▸ a) ?_ ?_ hM hf
  · intro k
    rw [hu, hp]
    by_cases hk : k = n
    · subst hk; simpa using hU
    · rw [uart_setUart_of_ne _ _ hk]; exact b k
  · intro k
    rw [hu, hp, hc]
    by_cases hk : k = n
    · subst hk; simpa using hW
    · rw [uart_setUart_of_ne _ _ hk]
      have := c k
      rw [eq_other_of_ne hk] at *
      intro p1 p2 p3 p4
      rcases this p1 p2 p3 p4 with h | ⟨w, b, h⟩
      · exact .inl h
      · rw [hO w b h]; exact .inr ⟨w, b, h⟩

/-- The mainline's position alone changed, and not from PUT's M4. -/
theorem machineInv_setMl {s : State} (h : MachineInv s) {m : Mainline}
    (h4 : ∀ n w b, s.ml ≠ .putM4 n w b) (hM : MlInv (s.setMl m)) : MachineInv (s.setMl m) := by
  obtain ⟨a, b, c, d, e⟩ := machineInv_parts h
  refine machineInv_of a (fun n => by simpa using b n) ?_ hM e
  intro n
  simp only [setMl_cfg, setMl_params, setMl_uart, setMl_ml]
  intro p1 p2 p3 p4
  rcases c n p1 p2 p3 p4 with h | ⟨w, b, h⟩
  · exact .inl h
  · exact absurd h (h4 n w b)

theorem machineInv_respond {s : State} (h : MachineInv s) (w : Word)
    (h4 : ∀ n w b, s.ml ≠ .putM4 n w b) : MachineInv (respond w s) :=
  machineInv_congr (machineInv_setMl (m := .idle) h h4 trivial) rfl rfl rfl rfl rfl

theorem machineInv_raiseFault {s : State} (h : MachineInv s) (w : Opw) (c : FaultCode) :
    MachineInv (raiseFault w c s) := by
  obtain ⟨a, b, cc, d, e⟩ := machineInv_parts h
  refine machineInv_of (by simpa using a) (fun n => by simpa using b n)
    (fun n => by simpa using cc n) ?_ ?_
  · revert d
    unfold MlInv InMode
    simp only [raiseFault_ml, raiseFault_uart, raiseFault_params]
    exact id
  · rw [raiseFault_eq]; dsimp only
    split
    · exact e
    · exact .inr ⟨rfl, (faultNumber_range c).1, (faultNumber_range c).2, rfl⟩

theorem two_le_capacities {s : State} (h : configOk s.cfg = true) (n : Inst) :
    2 ≤ (s.params n).capTx ∧ 2 ≤ (s.params n).capRx := by
  simp only [configOk, Bool.and_eq_true] at h
  cases n
  · exact ⟨(capacityOk_bounds h.1.1.1).1, (capacityOk_bounds h.1.1.2).1⟩
  · exact ⟨(capacityOk_bounds h.1.2).1, (capacityOk_bounds h.2).1⟩

/-- In a running queued instance LIFE binds only PRDY, TE, RE and RIE. -/
theorem lifeInv_of_running {c : InstConfig} {u u' : Uart} (h : LifeInv c.mode u)
    (hr : u.life = .running) (hq : c.mode = .queued) (e1 : u'.life = u.life) (e2 : u'.prdy = u.prdy)
    (e3 : u'.te = u.te) (e4 : u'.re = u.re) (e5 : u'.rie = u.rie) : LifeInv c.mode u' := by
  unfold LifeInv at *
  rw [hr] at h; rw [e1, hr]
  dsimp only at *
  rw [e2, e3, e4, e5]
  exact ⟨h.1, h.2.1, h.2.2.1, h.2.2.2.1, fun hp => by rw [hq] at hp; cases hp⟩

/-- A source is enabled only in a running queued instance (R111, R116). -/
theorem running_of_source {c : InstConfig} {u : Uart} (h : LifeInv c.mode u)
    (hr : u.rie = true ∨ u.tie = true) : u.life = .running ∧ c.mode = .queued := by
  unfold LifeInv at h
  split at h
  · obtain ⟨_, ⟨_, _, h3, h4, _⟩, _⟩ := h; rw [h3, h4] at hr; simp at hr
  · obtain ⟨_, ⟨_, _, h3, h4, _⟩, _⟩ := h; rw [h3, h4] at hr; simp at hr
  · rename_i hl
    refine ⟨hl, ?_⟩
    cases hm : c.mode with
    | queued => rfl
    | polled =>
      rw [hm] at h
      simp at h
      obtain ⟨_, _, _, h4, h5, _⟩ := h
      rw [h4, h5] at hr
      simp at hr

/-- What another agent may do to an instance while a request is in progress on it (R89, R92). -/
theorem mlInv_setUart {s : State} {n : Inst} {u : Uart} (hM : MlInv s)
    (hl : u.life = (s.uart n).life) (h1 : u.twr = (s.uart n).twr) (h2 : u.bufT = (s.uart n).bufT)
    (h3 : nextSlot (s.params n).capTx (s.uart n).twr ≠ (s.uart n).trd →
      nextSlot (s.params n).capTx (s.uart n).twr ≠ u.trd)
    (h4 : u.rrd = (s.uart n).rrd)
    (h5 : (s.uart n).rrd ≠ (s.uart n).rwr → (s.uart n).rrd ≠ u.rwr ∧
      u.bufR.read (s.uart n).rrd = (s.uart n).bufR.read (s.uart n).rrd) :
    MlInv (s.setUart n u) := by
  unfold MlInv InMode at *
  rw [setUart_ml]
  cases hml : s.ml with
  | idle => trivial
  | putM2 k w b =>
    rw [hml] at hM
    dsimp only at *
    simp only [setUart_params]
    by_cases hk : k = n
    · subst hk
      obtain ⟨a, rfl, c⟩ := hM
      rw [uart_setUart_same, hl, h1]
      exact ⟨a, rfl, h3 c⟩
    · rw [uart_setUart_of_ne _ _ hk]; exact hM
  | putM3 k w b =>
    rw [hml] at hM
    dsimp only at *
    simp only [setUart_params]
    by_cases hk : k = n
    · subst hk
      obtain ⟨a, rfl, c, d⟩ := hM
      rw [uart_setUart_same, hl, h1, h2]
      exact ⟨a, rfl, h3 c, d⟩
    · rw [uart_setUart_of_ne _ _ hk]; exact hM
  | putM4 k w b =>
    rw [hml] at hM
    dsimp only at *
    simp only [setUart_params]
    by_cases hk : k = n
    · subst hk
      rw [uart_setUart_same, hl]
      exact hM
    · rw [uart_setUart_of_ne _ _ hk]; exact hM
  | getM2 k r =>
    rw [hml] at hM
    dsimp only at *
    simp only [setUart_params]
    by_cases hk : k = n
    · subst hk
      obtain ⟨a, rfl, c⟩ := hM
      rw [uart_setUart_same, hl, h4]
      exact ⟨a, rfl, (h5 c).1⟩
    · rw [uart_setUart_of_ne _ _ hk]; exact hM
  | getM3 k r v =>
    rw [hml] at hM
    dsimp only at *
    simp only [setUart_params]
    by_cases hk : k = n
    · subst hk
      obtain ⟨a, rfl, c, d⟩ := hM
      rw [uart_setUart_same, hl, h4]
      exact ⟨a, rfl, (h5 c).1, (h5 c).2.trans d⟩
    · rw [uart_setUart_of_ne _ _ hk]; exact hM
  | bputM2 k b =>
    rw [hml] at hM
    dsimp only at *
    simp only [setUart_params]
    by_cases hk : k = n
    · subst hk
      rw [uart_setUart_same, hl]
      exact hM
    · rw [uart_setUart_of_ne _ _ hk]; exact hM
  | bgetM2 k =>
    rw [hml] at hM
    dsimp only at *
    simp only [setUart_params]
    by_cases hk : k = n
    · subst hk
      rw [uart_setUart_same, hl]
      exact hM
    · rw [uart_setUart_of_ne _ _ hk]; exact hM

end Sys2Proof.Machine
end

