-- ==== Sys2Proof/Laws/PerInstr.lean ====
section
/-! SUPPORT. Statements for all instructions, one lemma per constructor. -/

namespace Sys2Proof.Laws.TableRow

/-- The instruction's word selects its own row of the opcode map (R67), under its own mnemonic, and every
bit the row fixes is as the row fixes it. -/
def Statement (i : Instr) : Prop :=
  i.row ∈ opcodeTable ∧ i.row.mnemonic = i.mnemonic ∧ i.row.selects (encode i).opw = true

theorem calcDiv (clk baud : Word) : Statement (.calcDiv clk baud) :=
  ⟨by simp [Instr.row, opcodeTable], rfl, by simp only [Instr.row, encode]; decide⟩

theorem init (n : Inst) (baud : Word) : Statement (.init n baud) :=
  ⟨by simp [Instr.row, opcodeTable], rfl, by cases n <;> simp only [Instr.row, encode] <;> decide⟩

theorem start (n : Inst) : Statement (.start n) :=
  ⟨by simp [Instr.row, opcodeTable], rfl, by cases n <;> decide⟩

/-- A DATA byte lies outside the bits the rows of PUT, BPUT and STAT fix. -/
theorem data_outside_mask (p : Opw) (n : Inst) (b : Byte) (hp : (p ||| instBits n) &&& 0xFE00#16 = p) :
    ((p ||| instBits n ||| b.setWidth 16) &&& 0xFE00#16) = p := by
  have hb : (b.setWidth 16) &&& 0xFE00#16 = 0#16 := by
    apply BitVec.eq_of_getLsbD_eq
    intro i hi
    by_cases h8 : i < 8
    · have : i = 0 ∨ i = 1 ∨ i = 2 ∨ i = 3 ∨ i = 4 ∨ i = 5 ∨ i = 6 ∨ i = 7 := by omega
      rcases this with h | h | h | h | h | h | h | h <;> subst h <;> simp
    · simp [BitVec.getLsbD_of_ge b i (by omega)]
  have : ((p ||| instBits n ||| b.setWidth 16) &&& 0xFE00#16) =
      ((p ||| instBits n) &&& 0xFE00#16) ||| (b.setWidth 16 &&& 0xFE00#16) := by
    ext i hi
    simp only [BitVec.getElem_and, BitVec.getElem_or, Bool.and_or_distrib_right]
  rw [this, hb, hp, BitVec.or_zero]

theorem put (n : Inst) (b : Byte) : Statement (.put n b) :=
  ⟨by simp [Instr.row, opcodeTable], rfl, by
    have := data_outside_mask 0x4000#16 n b (by cases n <;> decide)
    simp only [Instr.row, encode, OpcodeRow.selects, this, beq_self_eq_true]⟩

theorem get (n : Inst) : Statement (.get n) :=
  ⟨by simp [Instr.row, opcodeTable], rfl, by cases n <;> decide⟩

theorem bput (n : Inst) (b : Byte) : Statement (.bput n b) :=
  ⟨by simp [Instr.row, opcodeTable], rfl, by
    have := data_outside_mask 0x6000#16 n b (by cases n <;> decide)
    simp only [Instr.row, encode, OpcodeRow.selects, this, beq_self_eq_true]⟩

theorem bget (n : Inst) : Statement (.bget n) :=
  ⟨by simp [Instr.row, opcodeTable], rfl, by cases n <;> decide⟩

theorem stat (n : Inst) (sel : Byte) : Statement (.stat n sel) :=
  ⟨by simp [Instr.row, opcodeTable], rfl, by
    have := data_outside_mask 0x8000#16 n sel (by cases n <;> decide)
    simp only [Instr.row, encode, OpcodeRow.selects, this, beq_self_eq_true]⟩

theorem txi (n : Inst) : Statement (.txi n) :=
  ⟨by simp [Instr.row, opcodeTable], rfl, by cases n <;> decide⟩

theorem rxi (n : Inst) : Statement (.rxi n) :=
  ⟨by simp [Instr.row, opcodeTable], rfl, by cases n <;> decide⟩

end Sys2Proof.Laws.TableRow
end

