-- ==== Sys2Proof/Tests/Slice0.lean ====
section
/-! SUPPORT. Tests with values from spec/95_test_vectors.md, the decoding of words written out bit by bit,
and for every obligation with hypotheses a witness: a concrete state that meets them all. -/

namespace Sys2Proof.Tests

open Sys2Proof.Machine

/-! ## Helpers: the answer's state, and small states -/

/-- The next state of an answer, none where it stops. -/
def nextOf : Answer → Option State
  | .next s => some s
  | .fault _ => none
  | .refused _ => none

/-- The last response of an answer. -/
def lastResp (a : Answer) : Option Word := (nextOf a).bind fun s => s.resps.getLast?

/-- The fault record an answer leaves, as {code, inst, opw}. -/
def recordOf (a : Answer) : Option (BitVec 8 × BitVec 1 × Opw) :=
  (nextOf a).map fun s => (s.fault.code, s.fault.inst, s.fault.opw)

/-- A running queued instance, C = 4, as INIT and START leave it with TIE disarmed. -/
def run4 : Uart :=
  { Uart.reset InstConfig.common [] with
    life := .running, prdy := true, te := true, re := true, rie := true, rate := 0x000B0085#32, baud := 9600#32 }

/-- The reset machine with instance 0 replaced. -/
def on0 (u : Uart) : State := { State.reset with u0 := u }

/-- Instance 0 configured and not started. -/
def configured0 : State :=
  on0 { Uart.reset InstConfig.common [] with
    life := .configured, prdy := true, rate := 0x000B0085#32, baud := 9600#32 }

/-- Instance 1 POLLED and running. -/
def polled1 : State :=
  { State.reset with
    cfg := { Config.common with inst1 := { InstConfig.common with mode := .polled } }
    u1 := { run4 with rie := false } }

/-- The machine under KEEP_ARMED with instance 0 replaced. -/
def keep0 (u : Uart) : State :=
  { on0 u with cfg := { Config.common with txIdlePolicy := .keepArmed } }

/-- Two bytes in the TX queue, one in the RX queue, a byte in RDR, both sources pending. -/
def busy4 : Uart :=
  { run4 with
    bufT := [(1, 0x41#8), (2, 0x42#8)], trd := 1, twr := 3, tie := true
    bufR := [(3, 0x7F#8)], rrd := 3, rwr := 0, rdr := some 0x10#8, rdrf := true }

/-- A clear fault record that holds a fault. -/
def faulted : State := { State.reset with fault := ⟨true, 0x05#8, 0#1, 0x3000#16⟩ }

/-! ## WellFormed: the one check, refused and accepted (R42, R70 e) -/

theorem test_wellFormed_refuses_selector_7 : (Instr.stat .i0 7#8).wellFormed = false := by decide
theorem test_wellFormed_refuses_selector_255 : (Instr.stat .i1 255#8).wellFormed = false := by decide
theorem test_wellFormed_accepts_selector_6 : (Instr.stat .i1 6#8).wellFormed = true := by decide

/-! ## Decoding: OP, RSVD, INST, DATA written out (R64, R67, L2.9) -/

theorem test_decode_calc : decode ⟨0b0001_000_0_00000000#16, 7#32, 9#32⟩ = .ok (.calcDiv 7#32 9#32) := by rfl
theorem test_decode_init : decode ⟨0b0010_000_1_00000000#16, 9600#32, 5#32⟩ = .ok (.init .i1 9600#32) := by rfl
theorem test_decode_start : decode ⟨0b0011_000_1_00000000#16, 1#32, 2#32⟩ = .ok (.start .i1) := by rfl
theorem test_decode_put : decode ⟨0b0100_000_1_01000001#16, 1#32, 2#32⟩ = .ok (.put .i1 0x41#8) := by rfl
theorem test_decode_get : decode ⟨0b0101_000_0_00000000#16, 1#32, 2#32⟩ = .ok (.get .i0) := by rfl
theorem test_decode_bput : decode ⟨0b0110_000_1_01010101#16, 1#32, 2#32⟩ = .ok (.bput .i1 0x55#8) := by rfl
theorem test_decode_bget : decode ⟨0b0111_000_1_00000000#16, 1#32, 2#32⟩ = .ok (.bget .i1) := by rfl
theorem test_decode_stat : decode ⟨0b1000_000_0_00000110#16, 1#32, 2#32⟩ = .ok (.stat .i0 6#8) := by rfl
theorem test_decode_txi : decode ⟨0b1001_000_0_00000000#16, 1#32, 2#32⟩ = .ok (.txi .i0) := by rfl
theorem test_decode_rxi : decode ⟨0b1010_000_1_00000000#16, 1#32, 2#32⟩ = .ok (.rxi .i1) := by rfl

theorem test_decode_op_0 : decode ⟨0b0000_000_0_00000000#16, 0#32, 0#32⟩ = .error .reservedOp := by rfl
theorem test_decode_op_B : decode ⟨0b1011_000_0_00000000#16, 0#32, 0#32⟩ = .error .reservedOp := by rfl
theorem test_decode_op_F : decode ⟨0b1111_000_0_00000000#16, 0#32, 0#32⟩ = .error .reservedOp := by rfl
theorem test_decode_rsvd : decode ⟨0b0100_001_0_01000001#16, 0#32, 0#32⟩ = .error .reservedBits := by rfl
theorem test_decode_rsvd_top : decode ⟨0b1000_100_0_00000001#16, 0#32, 0#32⟩ = .error .reservedBits := by rfl
theorem test_decode_calc_inst : decode ⟨0b0001_000_1_00000000#16, 0#32, 0#32⟩ = .error .calcInstance := by rfl
theorem test_decode_get_data : decode ⟨0b0101_000_0_00000001#16, 0#32, 0#32⟩ = .error .nonzeroData := by rfl
theorem test_decode_selector_7 : decode ⟨0b1000_000_0_00000111#16, 0#32, 0#32⟩ = .error .reservedSelector := by rfl
theorem test_decode_txi_from_mainline : decodeMainline ⟨0x9000#16, 0#32, 0#32⟩ = .error .entryPoint := by rfl
theorem test_decode_rxi_from_mainline : decodeMainline ⟨0xA100#16, 0#32, 0#32⟩ = .error .entryPoint := by rfl

/-- The table numbers OPA from bit 16 and OPB from bit 48: CALC with clk 3 and baud 2. -/
theorem test_table_word_operands :
    decodeTableWord 80 (0x1000 + 3 * 2 ^ 16 + 2 * 2 ^ 48) = some (.calcDiv 3#32 2#32) := by rfl

/-! ## One step of each instruction (L1, L2) -/

/-- L1.1. -/
theorem test_calc : lastResp (exec (.calcDiv 20485760#32 9600#32) .reset) = some 0x000B0085#32 := by decide

/-- L2.1: exact arithmetic beyond 32 bits, f = 31. -/
theorem test_calc_exact :
    lastResp (exec (.calcDiv 4294967295#32 524288#32) .reset) = some 0x001F01FF#32 := by decide

/-- L2.1: the unrelated bits of RATE are kept. -/
theorem test_init_keeps_other_bits :
    (nextOf (exec (.init .i0 9600#32)
      (State.resetWith { Config.common with inst0 := { InstConfig.common with rateOther := 0x3FFF#14 } }
        [] [] []))).map (fun s => s.u0.rate) = some 0xFFEBE085#32 := by decide

/-- P7: INIT twice. -/
theorem test_init_twice :
    recordOf (exec (.init .i0 9600#32) configured0) = some (0x05#8, 0#1, 0x2000#16) := by decide

/-- L2.2: TE, RE, RIE, TIE, LIFE 2. -/
theorem test_start_queued :
    (nextOf (exec (.start .i0) configured0)).map
      (fun s => (s.u0.te, s.u0.re, s.u0.rie, s.u0.tie, s.u0.life)) =
      some (true, true, true, true, .running) := by decide

/-- L2.2: START at reset. -/
theorem test_start_at_reset :
    recordOf (exec (.start .i0) .reset) = some (0x05#8, 0#1, 0x3000#16) := by decide

/-- L2.3: full at TWR 0, TRD 1. -/
theorem test_put_full :
    lastResp (exec (.put .i0 0xFF#8) (on0 { run4 with trd := 1, twr := 0 })) = some 0#32 := by decide

/-- L2.3: M3 wraps the write cursor from 3 to 0. -/
theorem test_put_publish_wraps :
    (nextOf (resume ({ on0 { run4 with trd := 1, twr := 3 } with ml := .putM3 .i0 3 0x00#8 }))).map
      (fun s => (s.u0.twr, s.ml)) = some (0, .putM4 .i0 3 0x00#8) := by decide

/-- L2.4: M3 wraps the read cursor from 3 to 0 and responds with 7F. -/
theorem test_get_publish_wraps :
    (nextOf (resume ({ on0 busy4 with ml := .getM3 .i0 3 0x7F#8 }))).map
      (fun s => (s.u0.rrd, s.resps)) = some (0, [0x0000017F#32]) := by decide

/-- L2.4: empty. -/
theorem test_get_empty : lastResp (exec (.get .i0) (on0 run4)) = some 0#32 := by decide

/-- L2.7: M2 of BPUT.1 0x55. -/
theorem test_bput_writes :
    (nextOf (resume { polled1 with ml := .bputM2 .i1 0x55#8 })).map
      (fun s => (s.u1.tdr, s.u1.tdre, s.resps)) = some (some 0x55#8, false, [0#32]) := by decide

/-- P7: BPUT.0 on a QUEUED instance. -/
theorem test_bput_bad_mode :
    recordOf (exec (.bput .i0 0x41#8) (on0 run4)) = some (0x06#8, 0#1, 0x6041#16) := by decide

/-- L2.7: BGET.1 of a received 00. -/
theorem test_bget_reads_zero :
    (nextOf (resume { polled1 with
      ml := .bgetM2 .i1
      u1 := { polled1.u1 with rdr := some 0x00#8, rdrf := true } })).map
      (fun s => (s.u1.rdrf, s.resps)) = some (false, [0x00000100#32]) := by decide

/-- L2.7: BGET.1 with nothing to receive is stuck. -/
theorem test_bget_stuck : nextOf (step { polled1 with ml := .bgetM2 .i1 }) = none := by decide

/-- L2.2: TRD 1, TWR 3, C 4. -/
theorem test_stat_txq :
    lastResp (exec (.stat .i0 4#8) (on0 { run4 with trd := 1, twr := 3 })) = some 0x03020301#32 := by decide

/-- L2.2: a running POLLED instance. -/
theorem test_stat_status_polled : lastResp (exec (.stat .i1 0#8) polled1) = some 0x0000049E#32 := by decide

/-- L2.5: the last byte is sent and TIE is cleared. -/
theorem test_txi_sends_last :
    (nextOf (exec (.txi .i0) (on0 { run4 with
      bufT := [(3, 0x58#8)], trd := 3, twr := 0, tie := true }))).map
      (fun s => (s.u0.tdr, s.u0.tdre, s.u0.trd, s.u0.tie)) =
      some (some 0x58#8, false, 0, false) := by decide

/-- L2.5: empty under KEEP_ARMED, TIE stays. -/
theorem test_txi_keep_armed :
    (nextOf (exec (.txi .i0) (keep0 { run4 with tie := true }))).map (fun s => s.u0.tie) =
      some true := by decide

/-- L2.6: the write cursor wraps. -/
theorem test_rxi_wraps :
    (nextOf (exec (.rxi .i0) (on0 { run4 with rwr := 3, rrd := 1, rdr := some 0x41#8, rdrf := true }))).map
      (fun s => (s.u0.bufR, s.u0.rwr, s.u0.rdrf)) = some ([(3, 0x41#8)], 0, false) := by decide

/-- L2.6: a drop at RXDROP = 0xFFFFFFFF. -/
theorem test_rxi_drop_wraps :
    (nextOf (exec (.rxi .i0) (on0 { run4 with
      rwr := 2, rrd := 3, rdr := some 0xFF#8, rdrf := true, rxdrop := 0xFFFFFFFF#32 }))).map
      (fun s => (s.u0.bufR, s.u0.rwr, s.u0.rdrf, s.u0.rxdrop)) = some ([], 2, false, 0#32) := by decide

/-! ## The line, the arbiter, the placed instruction -/

/-- L2.8: the transmitter takes 41. -/
theorem test_ltx :
    (nextOf (step (on0 { run4 with tdr := some 0x41#8, tdre := false }))).map
      (fun s => (s.u0.wireOut, s.u0.tdre)) = some ([0x41#8], true) := by decide

/-- L2.8: an overrun keeps the older byte. -/
theorem test_lrx_overrun :
    (nextOf (runMove (.lrx .i0) (on0 { run4 with
      wireIn := [0x7F#8], rdr := some 0x00#8, rdrf := true }))).map
      (fun s => (s.u0.wireIn, s.u0.ovr, s.u0.rdr)) = some ([], true, some 0x00#8) := by decide

/-- L2.8: RE = 0, the byte is lost. -/
theorem test_lrx_disabled :
    (nextOf (step { State.reset with u0 := { State.reset.u0 with wireIn := [0x7E#8] } })).map
      (fun s => (s.u0.wireIn, s.u0.rdrf, s.u0.ovr)) = some ([], false, false) := by decide

/-- L2.10: RXI before TXI of one instance. -/
theorem test_arbitrate_rx_first : arbitrate (on0 busy4) .i0 = .rxi .i0 := by decide

/-- L2.10: with a line pending the mainline does not step. -/
theorem test_mainline_held :
    enabled { on0 busy4 with program := [⟨0x8000#16, 0#32, 0#32⟩] } .main = false := by decide

/-- P7: a word that does not decode, as it was issued. -/
theorem test_illegal_word :
    recordOf (step { State.reset with program := [⟨0x1100#16, 0#32, 0#32⟩] }) =
      some (0x01#8, 1#1, 0x1100#16) := by decide

/-- A placed STAT.0 0 runs as the first step (L2.2). -/
theorem test_placed_stat : lastResp (step (State.reset.withFetchWord 16 0x8000)) = some 0x00000080#32 := by
  decide

/-- A placed INIT.1 with its operand runs as the first step (P2). -/
theorem test_placed_init :
    lastResp (step (State.reset.withFetchWord 48 (0x2100 + 115200 * 2 ^ 16))) = some 0x0003000B#32 := by
  decide

/-- A placed TXI.0 runs as the first step: nothing to send, TIE cleared (L2.5). -/
theorem test_placed_txi :
    (nextOf (step (State.reset.withFetchWord 16 0x9000))).map (fun s => (s.u0.tie, s.u0.tdre)) =
      some (false, true) := by decide

/-- A placed RXI.1 runs as the first step: RDRF cleared, one byte stored. -/
theorem test_placed_rxi :
    (nextOf (step (State.reset.withFetchWord 16 0xA100))).map (fun s => (s.u1.rdrf, s.u1.rwr)) =
      some (false, 1) := by decide

/-! ## Witnesses: a concrete state and operands for the hypotheses of each obligation -/

/-- Instance 0 served by its TX source: two bytes queued, no byte received. -/
def sending : State := on0 { busy4 with rdrf := false }

/-- The mainline about to publish a byte of instance 0, the transmitter busy, TIE armed. -/
def publishing : State :=
  { on0 { busy4 with
      bufT := [(1, 0x41#8), (2, 0x42#8), (3, 0x43#8)], tdr := some 0x40#8, tdre := false, rdrf := false } with
    ml := .putM3 .i0 3 0x43#8, agenda := [.main] }

/-- The mainline about to give back a slot of instance 0's RX queue. -/
def consuming : State :=
  { on0 { busy4 with tdr := some 0x40#8, tdre := false, rdrf := false } with
    ml := .getM3 .i0 3 0x7F#8, agenda := [.main] }

/-- KEEP_ARMED, TIE armed over an empty queue and an empty data register. -/
def storming : State := keep0 { run4 with tie := true }

/-- The reset machine about to run a request. -/
def offering (i : Instr) : State := { State.reset with program := [encode i] }

/-! ### Encoding -/

theorem witness_DecodeOfEncode : (Instr.rxi .i1).wellFormed = true ∧ (Instr.rxi .i1).isEntryPoint = true ∧
    (Instr.stat .i1 6#8).wellFormed = true ∧ (Instr.stat .i1 6#8).isEntryPoint = false := by decide

theorem witness_EncodeOfDecode : decode ⟨0x41FF#16, 3#32, 4#32⟩ = .ok (.put .i1 0xFF#8) := by rfl

theorem witness_IllegalRequestsRaise_illegal :
    let s := { State.reset with program := [⟨0x8007#16, 1#32, 2#32⟩] }
    configOk s.cfg = true ∧ choose s = some .main ∧ s.ml = .idle ∧
      s.program = ⟨0x8007#16, 1#32, 2#32⟩ :: [] ∧ IllegalWord 0x8007#16 := by
  refine ⟨by decide, by decide, rfl, rfl, ?_⟩
  unfold IllegalWord
  decide

theorem witness_IllegalRequestsRaise_legal :
    choose (offering (.stat .i0 6#8)) = some .main ∧ ¬ IllegalWord 0x8006#16 := by
  refine ⟨by decide, ?_⟩
  unfold IllegalWord
  decide

/-- A legal request that raises a fault: START at reset. -/
theorem witness_IllegalRequestsRaise_legal_fault :
    configOk (offering (.start .i0)).cfg = true ∧ choose (offering (.start .i0)) = some .main ∧
    (offering (.start .i0)).ml = .idle ∧ (offering (.start .i0)).program = ⟨0x3000#16, 0#32, 0#32⟩ :: [] ∧
    ¬ IllegalWord 0x3000#16 ∧ ∃ t, step (offering (.start .i0)) = .next t ∧ t.fault.valid = true := by
  refine ⟨by decide, by decide, rfl, rfl, ?_, _, rfl, rfl⟩
  unfold IllegalWord
  decide

theorem witness_IllegalRequestsRaise_operands :
    (opField 0x4041#16).toNat ≠ 1 ∧ (opField 0x4041#16).toNat ≠ 2 ∧ (opField 0x2000#16).toNat = 2 := by
  decide

theorem witness_OperandsUsedAsTheyStand :
    (opField 0xA100#16).toNat ≠ 1 ∧ (opField 0xA100#16).toNat ≠ 2 := by decide

theorem witness_PutStringStopsAtRejection :
    (∀ r ∈ [1#32, 1#32], accepted r = true) ∧ accepted 0#32 = false := by simp [accepted]

/-! ### The Divisor Calculator -/

theorem witness_RateCalcFaultConditions_zero : (0#32 = 0#32 ∨ 9600#32 = 0#32) ∧
    (9600#32 = 0#32 ∨ 0#32 = 0#32) := by decide

theorem witness_RateCalcFaultConditions_overflow :
    131072#32 ≠ 0#32 ∧ 1#32 ≠ 0#32 ∧ 131072 * (1#32).toNat ≤ (131072#32).toNat ∧
    rateCalc 131072#32 1#32 = .error .cfgOverflow ∧ rateCalc 131071#32 1#32 = .ok (8191#13, 30#5) := by
  refine ⟨by decide, by decide, by decide, by rfl, by rfl⟩

theorem witness_RateCalcFaultConditions_underflow :
    15#32 ≠ 0#32 ∧ (15#32).toNat < 16 * (1#32).toNat ∧
    rateCalc 15#32 1#32 = .error .cfgUnderflow ∧ rateCalc 16#32 1#32 = .ok (1#13, 0#5) := by
  refine ⟨by decide, by decide, by rfl, by rfl⟩

theorem witness_RateCalcDivisorAndFineAdjust :
    rateCalc 47#32 1#32 = .ok (2#13, 30#5) ∧ 16 * (1#32).toNat ≤ (131071#32).toNat ∧
    (131071#32).toNat / ((1#32).toNat * 16) ≤ 8191 ∧ 8191 < (131072#32).toNat / ((1#32).toNat * 16) := by
  refine ⟨by rfl, by decide, by decide, by decide⟩

theorem witness_GeneratedRateBound : rateCalc 16#32 1#32 = .ok (1#13, 0#5) := by rfl

theorem witness_CalcRespondsWithPair : 1#32 ≠ 0#32 ∧ 16 * (1#32).toNat ≤ (131071#32).toNat ∧
    (131071#32).toNat < 131072 * (1#32).toNat := by decide

theorem witness_CalcFaultsInOrder : State.reset.fault.valid = false ∧ 0#32 = 0#32 ∧
    131072 * (1#32).toNat ≤ (131072#32).toNat ∧ (15#32).toNat < 16 * (1#32).toNat := by decide

/-! ### Lifecycle and status -/

theorem witness_InitConfigures : (State.reset.uart .i0).life = .uninit ∧
    rateCalc (State.reset.params .i0).moduleClockHz 9600#32 = .ok (133#13, 11#5) := ⟨rfl, by rfl⟩

theorem witness_InitFaultsInOrder : configured0.fault.valid = false ∧
    (configured0.uart .i0).life ≠ .uninit ∧ (configured0.uart .i1).life = .uninit ∧
    rateCalc (configured0.params .i1).moduleClockHz 0#32 = .error .cfgZero :=
  ⟨rfl, by decide, rfl, by rfl⟩

theorem witness_StartEnables_queued : (configured0.uart .i0).life = .configured ∧
    (configured0.uart .i0).prdy = true ∧ (configured0.params .i0).mode = .queued := by decide

theorem witness_StartEnables_polled :
    let s := { polled1 with u1 := configured0.u0 }
    (s.uart .i1).life = .configured ∧ (s.uart .i1).prdy = true ∧ (s.params .i1).mode = .polled := by decide

theorem witness_StartEnables_badState :
    ((State.reset.uart .i0).life ≠ .configured ∨ (State.reset.uart .i0).prdy = false) ∧
    State.reset.fault.valid = false := by decide

theorem witness_StatReadsImage : (6#8).toNat ≤ 6 ∧ 6 < (7#8).toNat ∧ State.reset.fault.valid = false := by
  decide

theorem witness_QueueImageFields : capacityOk ((on0 busy4).params .i0).capTx = true ∧
    capacityOk ((on0 busy4).params .i0).capRx = true ∧ capacityOk 2 = true ∧ capacityOk 256 = true ∧
    CursorInv ((on0 busy4).params .i0) ((on0 busy4).uart .i0) := by
  unfold CursorInv
  decide

/-! ### The channel -/

theorem witness_PutAcceptsInFourSteps :
    let s := on0 { run4 with trd := 1, twr := 3 }
    InMode s .i0 .queued ∧ (s.uart .i0).twr < (s.params .i0).capTx ∧
      ((s.uart .i0).twr + 1) % (s.params .i0).capTx ≠ (s.uart .i0).trd := by
  unfold InMode
  decide

theorem witness_PutRejectionWritesNothing :
    let s := on0 { run4 with trd := 0, twr := 3 }
    InMode s .i0 .queued ∧ ((s.uart .i0).twr + 1) % (s.params .i0).capTx = (s.uart .i0).trd := by
  unfold InMode
  decide

theorem witness_GetReturnsFrontByte : InMode (on0 busy4) .i0 .queued ∧
    ((on0 busy4).uart .i0).rrd < ((on0 busy4).params .i0).capRx ∧
    ((on0 busy4).uart .i0).rrd ≠ ((on0 busy4).uart .i0).rwr ∧
    ((on0 busy4).uart .i0).bufR.read ((on0 busy4).uart .i0).rrd = some 0x7F#8 := by
  unfold InMode
  decide

theorem witness_GetNeverBlocks : InMode (on0 run4) .i0 .queued ∧
    ((on0 run4).uart .i0).rrd = ((on0 run4).uart .i0).rwr := by
  unfold InMode
  decide

theorem witness_ChannelRequestsOutOfStateOrMode_badState : configured0.fault.valid = false ∧
    (configured0.uart .i0).life ≠ .running ∧ (State.reset.uart .i0).life ≠ .running := by decide

theorem witness_ChannelRequestsOutOfStateOrMode_badMode :
    ((on0 run4).uart .i0).life = .running ∧ ((on0 run4).params .i0).mode ≠ .polled ∧
    (polled1.uart .i1).life = .running ∧ (polled1.params .i1).mode ≠ .queued := by decide

theorem witness_TxiSendsFrontByte : (sending.uart .i0).trd ≠ (sending.uart .i0).twr ∧
    (sending.uart .i0).trd < (sending.params .i0).capTx ∧
    (sending.uart .i0).bufT.read (sending.uart .i0).trd = some 0x41#8 := by decide

theorem witness_TxiOverEmptyQueue : ((on0 run4).uart .i0).trd = ((on0 run4).uart .i0).twr ∧
    (on0 run4).cfg.txIdlePolicy = .disarm ∧ (storming.uart .i0).trd = (storming.uart .i0).twr ∧
    storming.cfg.txIdlePolicy = .keepArmed := by decide

theorem witness_RxiStoresByte : ((on0 busy4).uart .i0).rdr = some 0x10#8 ∧
    ((on0 busy4).uart .i0).rwr < ((on0 busy4).params .i0).capRx ∧
    (((on0 busy4).uart .i0).rwr + 1) % ((on0 busy4).params .i0).capRx ≠ ((on0 busy4).uart .i0).rrd := by
  decide

theorem witness_RxiDropsNewest :
    let s := on0 { busy4 with rwr := 3, rrd := 0, rxdrop := 0xFFFFFFFF#32 }
    (s.uart .i0).rdr = some 0x10#8 ∧
      ((s.uart .i0).rwr + 1) % (s.params .i0).capRx = (s.uart .i0).rrd := by decide

theorem witness_BputWaitsThenWrites : InMode polled1 .i1 .polled := by
  unfold InMode
  decide

theorem witness_BgetWaitsThenReads :
    let s := { polled1 with u1 := { polled1.u1 with rdr := some 0x00#8, rdrf := true } }
    InMode s .i1 .polled ∧ (s.uart .i1).rdr = some 0x00#8 := by
  unfold InMode
  decide

theorem witness_TransmitterTakesByte : (publishing.uart .i0).tdr = some 0x40#8 ∧
    enabled publishing (.ltx .i0) = true := by decide

theorem witness_ReceiverTakesByte :
    let s (re rdrf : Bool) := on0 { run4 with re := re, rdrf := rdrf, wireIn := [0x7E#8] }
    (∀ re rdrf, ((s re rdrf).uart .i0).wireIn = 0x7E#8 :: [] ∧ ((s re rdrf).uart .i0).re = re ∧
      ((s re rdrf).uart .i0).rdrf = rdrf ∧ enabled (s re rdrf) (.lrx .i0) = true) := by decide

/-! ### Faults and scheduling -/

theorem witness_FaultsArePrecise : State.reset.fault.valid = false ∧
    ∃ t, exec (.start .i0) State.reset = .next t ∧ t.fault.valid = true ∧ configOk t.cfg = true :=
  ⟨rfl, _, rfl, rfl, by decide⟩

theorem witness_FaultedMachineHasNoStep : faulted.fault.valid = true ∧ configOk faulted.cfg = true := by
  decide

theorem witness_InterruptHasStepExactly_rx : configOk (on0 busy4).cfg = true ∧
    choose (on0 busy4) = some (.irq .i0) ∧
    ((on0 busy4).uart .i0).rie = true ∧ ((on0 busy4).uart .i0).rdrf = true := by decide

theorem witness_InterruptHasStepExactly_tx : configOk sending.cfg = true ∧
    choose sending = some (.irq .i0) ∧
    ¬ ((sending.uart .i0).rie = true ∧ (sending.uart .i0).rdrf = true) := by decide

/-- Two agents have a step, and the agenda can name either. -/
theorem witness_EveryOrderIsAdmitted : enabled publishing .main = true ∧
    enabled publishing (.ltx .i0) = true ∧ choose publishing = some .main ∧
    choose { publishing with agenda := [.ltx .i0] } = some (.ltx .i0) := by decide

theorem witness_EntryPointSavesNothing : ∃ t t', exec (.txi .i0) sending = .next t ∧
    exec (.rxi .i0) (on0 busy4) = .next t' := ⟨_, _, rfl, rfl⟩

theorem witness_StepRunsDecodedInstruction :
    let s := offering (.put .i1 0xFF#8)
    configOk s.cfg = true ∧ choose s = some .main ∧ s.ml = .idle ∧
      s.program = encode (.put .i1 0xFF#8) :: [] ∧
      decode (encode (.put .i1 0xFF#8)) = .ok (.put .i1 0xFF#8) ∧
      (Instr.put .i1 0xFF#8).isEntryPoint = false :=
  ⟨by decide, by decide, rfl, rfl, rfl, rfl⟩

theorem witness_StepResumesRequestInProgress : configOk publishing.cfg = true ∧
    choose publishing = some .main ∧ publishing.ml ≠ .idle := by decide

theorem witness_PlacedInstructionRunsNext : configOk State.reset.cfg = true ∧
    decodeTableWord 16 0x8006 = some (.stat .i0 6#8) ∧ (Instr.stat .i0 6#8).isEntryPoint = false ∧
    decodeTableWord 16 0x9000 = some (.txi .i0) ∧ decodeTableWord 16 0xA100 = some (.rxi .i1) := by
  refine ⟨by decide, by rfl, rfl, by rfl, by rfl⟩

theorem witness_RunEndsFaultedFinalOrStuck_final : configOk State.reset.cfg = true ∧
    IsFinal State.reset := by
  refine ⟨by decide, rfl, rfl, rfl, fun n => ?_⟩
  cases n <;> exact ⟨rfl, rfl, .inr rfl, rfl⟩

theorem witness_RunEndsFaultedFinalOrStuck_stuck :
    let s := { polled1 with ml := .bgetM2 .i1 }
    configOk s.cfg = true ∧ (∀ m, enabled s m = false) ∧ s.fault.valid = false ∧ ¬ IsFinal s := by
  refine ⟨by decide, ?_, rfl, fun h => ?_⟩
  · intro m
    cases m with
    | main => decide
    | irq n => cases n <;> decide
    | ltx n => cases n <;> decide
    | lrx n => cases n <;> decide
  · exact absurd h.2.1 (by decide)

theorem witness_BadCapacityIsRefused :
    let s := { State.reset with cfg := { Config.common with inst1 := { InstConfig.common with capRx := 3 } } }
    ∃ n, ¬ (∃ k, 1 ≤ k ∧ k ≤ 8 ∧ (s.params n).capTx = 2 ^ k) ∨
      ¬ (∃ k, 1 ≤ k ∧ k ≤ 8 ∧ (s.params n).capRx = 2 ^ k) := by
  refine ⟨.i1, .inr ?_⟩
  rintro ⟨k, h1, h2, h3⟩
  have h3 : 3 = 2 ^ k := h3
  interval_cases k <;> omega

/-! ### The invariant and the whole-machine rules -/

/-- A capacity at each end of the range is admitted. -/
theorem witness_ResetMeetsInvariant : configOk Config.common = true ∧
    configOk { Config.common with inst0 := { InstConfig.common with capTx := 2, capRx := 256 } } = true := by
  decide

/-- The slots of a queue, checked one by one. -/
theorem all_some {l : List (Option Byte)} (h : l.all Option.isSome = true) : ∀ x ∈ l, x.isSome = true :=
  List.all_eq_true.1 h

/-- An idle instance at reset, in the terms of the invariant. -/
theorem reset_instanceInv : InstanceInv InstConfig.common (Uart.reset InstConfig.common []) := by
  refine ⟨⟨rfl, ⟨rfl, rfl, rfl, rfl, rfl, rfl⟩, rfl, rfl, rfl, rfl⟩, ?_, ⟨rfl, rfl, rfl, rfl⟩, ?_, ?_, by decide⟩
  · unfold CursorInv
    decide
  · exact ⟨all_some (by decide), all_some (by decide)⟩
  · constructor <;> decide

/-- A state with instance 0 running under `c` and instance 1 at reset meets the invariant. -/
theorem machineInv_on0 {s : State} (hp : ∀ n, s.params n = InstConfig.common)
    (h1 : s.uart .i1 = Uart.reset InstConfig.common []) (hc : configOk s.cfg = true)
    (hf : s.fault = FaultRecord.clear) (h0 : InstanceInv InstConfig.common (s.uart .i0))
    (hw : (s.uart .i0).tie = true ∨ (s.uart .i0).trd = (s.uart .i0).twr) (hm : MlInv s) : MachineInv s := by
  refine machineInv_of hc (fun n => ?_) (fun n => ?_) hm (.inl hf)
  · cases n
    · rw [hp]; exact h0
    · rw [hp, h1]; exact reset_instanceInv
  · cases n
    · intro _ _ _ h
      rcases hw with hw | hw
      · exact .inl hw
      · exact absurd hw h
    · intro _ h
      rw [h1] at h
      cases h

/-- A running queued instance, from the facts about its queues. -/
theorem running_instanceInv {u : Uart} (hl : u.life = .running ∧ u.prdy = true ∧ u.te = true ∧ u.re = true ∧
      u.rie = true) (hc : CursorInv InstConfig.common u) (hs : StoreInv InstConfig.common u)
    (hw : WrittenInv InstConfig.common u) (hd : DataInv u)
    (ho : otherOf u.rate = InstConfig.common.rateOther) : InstanceInv InstConfig.common u := by
  refine ⟨?_, hc, hs, hw, hd, ho⟩
  unfold LifeInv
  rw [hl.1]
  exact ⟨hl.2.1, hl.2.2.1, hl.2.2.2.1, by rw [hl.2.2.2.2]; decide, by intro h; cases h⟩

theorem witness_reset_inv : MachineInv State.reset :=
  machineInv_on0 (fun n => by cases n <;> rfl) rfl (by decide) rfl reset_instanceInv (.inr rfl) trivial

theorem witness_sending_inv : MachineInv sending := by
  refine machineInv_on0 (fun n => by cases n <;> rfl) rfl (by decide) rfl
    (running_instanceInv (by decide) ?_ ⟨rfl, rfl, rfl, rfl⟩ ?_ ?_ (by decide)) (.inl rfl) trivial
  · unfold CursorInv; decide
  · exact ⟨all_some (by decide), all_some (by decide)⟩
  · constructor <;> decide

theorem witness_busy_inv : MachineInv (on0 busy4) := by
  refine machineInv_on0 (fun n => by cases n <;> rfl) rfl (by decide) rfl
    (running_instanceInv (by decide) ?_ ⟨rfl, rfl, rfl, rfl⟩ ?_ ?_ (by decide)) (.inl rfl) trivial
  · unfold CursorInv; decide
  · exact ⟨all_some (by decide), all_some (by decide)⟩
  · constructor <;> decide

/-- The RX queue full of three bytes, one more arrived. -/
def overflowing : State :=
  on0 { busy4 with bufR := [(0, 0x01#8), (1, 0x02#8), (3, 0x7F#8)], rrd := 3, rwr := 2 }

theorem witness_overflowing_inv : MachineInv overflowing := by
  refine machineInv_on0 (fun n => by cases n <;> rfl) rfl (by decide) rfl
    (running_instanceInv (by decide) ?_ ⟨rfl, rfl, rfl, rfl⟩ ?_ ?_ (by decide)) (.inl rfl) trivial
  · unfold CursorInv; decide
  · exact ⟨all_some (by decide), all_some (by decide)⟩
  · constructor <;> decide

theorem witness_publishing_inv : MachineInv publishing := by
  refine machineInv_on0 (fun n => by cases n <;> rfl) rfl (by decide) rfl
    (running_instanceInv (by decide) ?_ ⟨rfl, rfl, rfl, rfl⟩ ?_ ?_ (by decide)) (.inl rfl) ?_
  · unfold CursorInv; decide
  · exact ⟨all_some (by decide), all_some (by decide)⟩
  · constructor <;> decide
  · exact ⟨⟨rfl, rfl⟩, rfl, by decide, rfl⟩

theorem witness_consuming_inv : MachineInv consuming := by
  refine machineInv_on0 (fun n => by cases n <;> rfl) rfl (by decide) rfl
    (running_instanceInv (by decide) ?_ ⟨rfl, rfl, rfl, rfl⟩ ?_ ?_ (by decide)) (.inl rfl) ?_
  · unfold CursorInv; decide
  · exact ⟨all_some (by decide), all_some (by decide)⟩
  · constructor <;> decide
  · exact ⟨⟨rfl, rfl⟩, rfl, by decide, rfl⟩

theorem witness_StepKeepsInvariant : MachineInv (on0 busy4) ∧ ∃ t, step (on0 busy4) = .next t :=
  ⟨witness_busy_inv, _, rfl⟩

/-- A run that has ended meets the invariant and its step is a fault. -/
theorem witness_NoModelFaultFromInvariant : MachineInv State.reset ∧ step State.reset = .fault .ended :=
  ⟨witness_reset_inv, rfl⟩

/-- A PUT's M3 extends the stream; a TXI moves a byte within it. -/
theorem witness_TransmitStreamIsFifo :
    (MachineInv publishing ∧ choose publishing = some .main ∧ (∃ t, step publishing = .next t) ∧
      committed .main publishing.ml .i0 = [some 0x43#8]) ∧
    (MachineInv sending ∧ choose sending = some (.irq .i0) ∧ ∃ t, step sending = .next t) :=
  ⟨⟨witness_publishing_inv, by decide, ⟨_, rfl⟩, rfl⟩, witness_sending_inv, by decide, _, rfl⟩

/-- RXI with room, RXI over a full queue, GET's M3, and a step of none of them. -/
theorem witness_ReceiveQueueIsFifo :
    (MachineInv (on0 busy4) ∧ choose (on0 busy4) = some (.irq .i0) ∧ (∃ t, step (on0 busy4) = .next t) ∧
      rxIrq ((on0 busy4).uart .i0) = true ∧ isFull 4 busy4.rwr busy4.rrd = false) ∧
    (MachineInv overflowing ∧ choose overflowing = some (.irq .i0) ∧ (∃ t, step overflowing = .next t) ∧
      rxIrq (overflowing.uart .i0) = true ∧ isFull 4 overflowing.u0.rwr overflowing.u0.rrd = true) ∧
    (MachineInv consuming ∧ choose consuming = some .main ∧ (∃ t, step consuming = .next t) ∧
      consuming.ml = .getM3 .i0 3 0x7F#8) ∧
    (MachineInv sending ∧ choose sending = some (.irq .i0) ∧ rxIrq (sending.uart .i0) = false) :=
  ⟨⟨witness_busy_inv, by decide, ⟨_, rfl⟩, rfl, rfl⟩,
    ⟨witness_overflowing_inv, by decide, ⟨_, rfl⟩, rfl, rfl⟩,
    ⟨witness_consuming_inv, by decide, ⟨_, rfl⟩, rfl⟩, witness_sending_inv, by decide, rfl⟩

theorem witness_KeepArmedStormNeverEnds : MachineInv storming ∧ Storm .i0 storming := by
  refine ⟨machineInv_on0 (fun n => by cases n <;> rfl) rfl (by decide) rfl
    (running_instanceInv (by decide) ?_ ⟨rfl, rfl, rfl, rfl⟩ ?_ ?_ (by decide)) (.inl rfl) trivial,
    rfl, rfl, rfl, rfl, rfl⟩
  · unfold CursorInv; decide
  · exact ⟨all_some (by decide), all_some (by decide)⟩
  · constructor <;> decide

theorem witness_UnrelatedRateBitsNeverChange : ∃ t, step (offering (.init .i0 9600#32)) = .next t :=
  ⟨_, rfl⟩

/-- Each cursor changes in a step of its writer. -/
theorem witness_OneWriterPerCursor :
    (choose publishing = some .main ∧ ∃ t, step publishing = .next t ∧ t.u0.twr ≠ publishing.u0.twr) ∧
    (choose sending = some (.irq .i0) ∧ ∃ t, step sending = .next t ∧ t.u0.trd ≠ sending.u0.trd) ∧
    (choose (on0 busy4) = some (.irq .i0) ∧ ∃ t, step (on0 busy4) = .next t ∧ t.u0.rwr ≠ busy4.rwr) ∧
    (choose consuming = some .main ∧ ∃ t, step consuming = .next t ∧ t.u0.rrd ≠ consuming.u0.rrd) :=
  ⟨⟨by decide, _, rfl, by decide⟩, ⟨by decide, _, rfl, by decide⟩, ⟨by decide, _, rfl, by decide⟩,
    by decide, _, rfl, by decide⟩

theorem witness_InstancesAreIndependent : (Instr.put .i0 0x41#8).inst? = some .i0 ∧
    (Instr.calcDiv 1#32 1#32).inst? = none ∧ publishing.ml.inst? = some .i0 := by decide

/-- The last byte's TXI sends something; an empty TXI disarms; PUT's M4 arms; RXI clears RDRF; LRX sets it. -/
theorem witness_InterruptSourcesAreDischarged :
    (let s := on0 { run4 with tie := true };
      choose s = some (.irq .i0) ∧ rxIrq (s.uart .i0) = false ∧ s.cfg.txIdlePolicy = .disarm ∧
      (s.params .i0).capTx ≥ 2 ∧ (s.uart .i0).trd < (s.params .i0).capTx ∧
      ∃ t, step s = .next t ∧ (t.uart .i0).trd = (s.uart .i0).trd) ∧
    (let s := { on0 run4 with ml := .putM4 .i0 3 0x43#8 };
      choose s = some .main ∧ (s.uart .i0).tie = false ∧ ∃ t, step s = .next t ∧ (t.uart .i0).tie = true) ∧
    (choose (on0 busy4) = some (.irq .i0) ∧ rxIrq ((on0 busy4).uart .i0) = true ∧
      ∃ t, step (on0 busy4) = .next t) ∧
    (let s := on0 { run4 with wireIn := [0x7E#8] };
      choose s = some (.lrx .i0) ∧ (s.uart .i0).rdrf = false ∧
      ∃ t, step s = .next t ∧ (t.uart .i0).rdrf = true) :=
  ⟨⟨by decide, rfl, rfl, by decide, by decide, _, rfl, rfl⟩, ⟨by decide, rfl, _, rfl, rfl⟩,
    ⟨by decide, rfl, _, rfl⟩, by decide, rfl, _, rfl, rfl⟩

theorem witness_LifecycleMovesForward :
    (∃ t, step (offering (.init .i0 9600#32)) = .next t ∧ (t.uart .i0).life ≠ (State.reset.uart .i0).life) ∧
    (let s := { configured0 with program := [encode (.start .i0)] };
      ∃ t, step s = .next t ∧ (t.uart .i0).life ≠ (s.uart .i0).life) :=
  ⟨⟨_, rfl, by decide⟩, _, rfl, by decide⟩

/-- Before INIT and after it. -/
theorem witness_RateFieldsStayThoseOfBaud :
    (RateInv State.reset ∧ ∃ t, step (offering (.init .i0 9600#32)) = .next t) ∧ RateInv configured0 := by
  refine ⟨⟨fun n => by cases n <;> exact ⟨by decide, by decide, rfl⟩, _, rfl⟩, fun n => ?_⟩
  cases n
  · show rateCalc 20485760#32 9600#32 = _
    rfl
  · exact ⟨by decide, by decide, rfl⟩

/-- Each instruction answers a next state on some state. -/
theorem witness_InstructionFrame :
    (∃ t, exec (.calcDiv 16#32 1#32) State.reset = .next t) ∧ (∃ t, exec (.init .i1 1#32) State.reset = .next t) ∧
    (∃ t, exec (.start .i0) configured0 = .next t) ∧ (∃ t, exec (.put .i0 0#8) (on0 run4) = .next t) ∧
    (∃ t, exec (.get .i0) (on0 busy4) = .next t) ∧ (∃ t, exec (.bput .i1 0#8) polled1 = .next t) ∧
    (∃ t, exec (.bget .i1) polled1 = .next t) ∧ (∃ t, exec (.stat .i1 6#8) State.reset = .next t) ∧
    (∃ t, exec (.txi .i0) sending = .next t) ∧ (∃ t, exec (.rxi .i0) (on0 busy4) = .next t) :=
  ⟨⟨_, rfl⟩, ⟨_, rfl⟩, ⟨_, rfl⟩, ⟨_, rfl⟩, ⟨_, rfl⟩, ⟨_, rfl⟩, ⟨_, rfl⟩, ⟨_, rfl⟩, ⟨_, rfl⟩, ⟨_, rfl⟩⟩

/-- RXI over a full queue, TXI over an empty one, and TXI under KEEP_ARMED. -/
theorem witness_InstructionFrame_corners :
    ((∃ t, exec (.rxi .i0) overflowing = .next t) ∧
      ((overflowing.uart .i0).rwr + 1) % (overflowing.params .i0).capRx = (overflowing.uart .i0).rrd) ∧
    ((∃ t, exec (.rxi .i0) (on0 busy4) = .next t) ∧
      (((on0 busy4).uart .i0).rwr + 1) % ((on0 busy4).params .i0).capRx ≠ ((on0 busy4).uart .i0).rrd) ∧
    ((∃ t, exec (.txi .i0) (on0 run4) = .next t) ∧ ((on0 run4).uart .i0).trd = ((on0 run4).uart .i0).twr) ∧
    (∃ t, exec (.txi .i0) storming = .next t) ∧ storming.cfg.txIdlePolicy = .keepArmed :=
  ⟨⟨⟨_, rfl⟩, by decide⟩, ⟨⟨_, rfl⟩, by decide⟩, ⟨⟨_, rfl⟩, rfl⟩, ⟨_, rfl⟩, rfl⟩

/-- Each later step answers a next state on some state. -/
theorem witness_LaterStepFrame :
    (∃ t, resume { on0 run4 with ml := .putM2 .i0 3 0x41#8 } = .next t) ∧ (∃ t, resume publishing = .next t) ∧
    (∃ t, resume { on0 run4 with ml := .putM4 .i0 3 0x41#8 } = .next t) ∧
    (∃ t, resume { on0 busy4 with ml := .getM2 .i0 3 } = .next t) ∧ (∃ t, resume consuming = .next t) ∧
    (∃ t, resume { polled1 with ml := .bputM2 .i1 0x55#8 } = .next t) ∧
    (∃ t, resume { polled1 with ml := .bgetM2 .i1, u1 := { polled1.u1 with rdr := some 0#8 } } = .next t) :=
  ⟨⟨_, rfl⟩, ⟨_, rfl⟩, ⟨_, rfl⟩, ⟨_, rfl⟩, ⟨_, rfl⟩, ⟨_, rfl⟩, ⟨_, rfl⟩⟩

end Sys2Proof.Tests
end

/-! PROOF. R7, R151: the step refuses exactly the configurations with a capacity that is not a power of
two in 2 .. 256. No meaning refuses, so the configuration check is the step's only refusal. -/

namespace Sys2Proof.Machine

section
variable {s : State} {n : Inst} {r : Refusal}

/-! ## The configuration check in R7's own words -/

/-- The capacities the check lists are R7's powers of two. -/
theorem capacityOk_iff {C : Nat} : capacityOk C = true ↔ ∃ k, 1 ≤ k ∧ k ≤ 8 ∧ C = 2 ^ k := by
  constructor
  · intro h
    have hC : C = 2 ∨ C = 4 ∨ C = 8 ∨ C = 16 ∨ C = 32 ∨ C = 64 ∨ C = 128 ∨ C = 256 := by
      simpa [capacityOk] using h
    obtain h | h | h | h | h | h | h | h := hC
    · exact ⟨1, by omega⟩
    · exact ⟨2, by omega⟩
    · exact ⟨3, by omega⟩
    · exact ⟨4, by omega⟩
    · exact ⟨5, by omega⟩
    · exact ⟨6, by omega⟩
    · exact ⟨7, by omega⟩
    · exact ⟨8, by omega⟩
  · rintro ⟨k, h1, h8, rfl⟩
    interval_cases k <;> decide

/-- The check asks the same of all four queues. -/
theorem configOk_iff : configOk s.cfg = true ↔
    ∀ n, capacityOk (s.params n).capTx = true ∧ capacityOk (s.params n).capRx = true := by
  simp only [configOk, Bool.and_eq_true]
  constructor
  · rintro ⟨⟨⟨tx0, rx0⟩, tx1⟩, rx1⟩ n
    cases n with
    | i0 => exact ⟨tx0, rx0⟩
    | i1 => exact ⟨tx1, rx1⟩
  · intro h
    obtain ⟨tx0, rx0⟩ := h .i0
    obtain ⟨tx1, rx1⟩ := h .i1
    exact ⟨⟨⟨tx0, rx0⟩, tx1⟩, rx1⟩

/-! ## No meaning refuses -/

theorem raiseFor_ne_refused {i : Instr} {c : FaultCode} : raiseFor i c s ≠ .refused r := nofun

theorem execCalc_ne_refused {clk baud : Word} : execCalc clk baud s ≠ .refused r := by
  unfold execCalc
  split
  · exact raiseFor_ne_refused
  · nofun

theorem execInit_ne_refused {baud : Word} : execInit n baud s ≠ .refused r := by
  unfold execInit
  dsimp only
  split
  · exact raiseFor_ne_refused
  · split
    · exact raiseFor_ne_refused
    · nofun

theorem execStart_ne_refused : execStart n s ≠ .refused r := by
  unfold execStart
  dsimp only
  split
  · exact raiseFor_ne_refused
  · split
    · exact raiseFor_ne_refused
    · nofun

theorem execStat_ne_refused {sel : Byte} : execStat n sel s ≠ .refused r := by
  unfold execStat
  split
  · nofun
  · exact raiseFor_ne_refused

theorem execPut_ne_refused {b : Byte} : execPut n b s ≠ .refused r := by
  unfold execPut
  dsimp only
  split
  · exact raiseFor_ne_refused
  · split <;> nofun

theorem execGet_ne_refused : execGet n s ≠ .refused r := by
  unfold execGet
  dsimp only
  split
  · exact raiseFor_ne_refused
  · split <;> nofun

theorem execBput_ne_refused {b : Byte} : execBput n b s ≠ .refused r := by
  unfold execBput
  split
  · exact raiseFor_ne_refused
  · nofun

theorem execBget_ne_refused : execBget n s ≠ .refused r := by
  unfold execBget
  split
  · exact raiseFor_ne_refused
  · nofun

theorem execTxi_ne_refused : execTxi n s ≠ .refused r := by
  unfold execTxi
  dsimp only
  split
  · nofun
  · split <;> nofun

theorem execRxi_ne_refused : execRxi n s ≠ .refused r := by
  unfold execRxi
  dsimp only
  split
  · nofun
  · split
    · nofun
    · split <;> nofun

/-- Every instruction has a meaning. -/
theorem exec_ne_refused (i : Instr) : exec i s ≠ .refused r := by
  cases i with
  | calcDiv clk baud => exact execCalc_ne_refused
  | init n baud => exact execInit_ne_refused
  | start n => exact execStart_ne_refused
  | put n b => exact execPut_ne_refused
  | get n => exact execGet_ne_refused
  | bput n b => exact execBput_ne_refused
  | bget n => exact execBget_ne_refused
  | stat n sel => exact execStat_ne_refused
  | txi n => exact execTxi_ne_refused
  | rxi n => exact execRxi_ne_refused

/-! ## No later step and no agent refuses -/

theorem putWrite_ne_refused {w : Nat} {b : Byte} : putWrite n w b s ≠ .refused r := by
  unfold putWrite
  dsimp only
  split <;> nofun

theorem getRead_ne_refused {k : Nat} : getRead n k s ≠ .refused r := by
  unfold getRead
  split <;> nofun

theorem bgetRead_ne_refused : bgetRead n s ≠ .refused r := by
  unfold bgetRead
  split <;> nofun

/-- Every later step of a request has a meaning; the four that cannot fail answer a next state as written. -/
theorem resume_ne_refused : resume s ≠ .refused r := by
  unfold resume
  split
  case h_1 => nofun
  case h_2 => exact putWrite_ne_refused
  case h_3 => nofun
  case h_4 => nofun
  case h_5 => exact getRead_ne_refused
  case h_6 => nofun
  case h_7 => nofun
  case h_8 => exact bgetRead_ne_refused

theorem runMain_ne_refused : runMain s ≠ .refused r := by
  unfold runMain
  split
  · nofun
  · split
    · nofun
    · exact exec_ne_refused _
  · exact resume_ne_refused

theorem lineTransmit_ne_refused : lineTransmit n s ≠ .refused r := by
  unfold lineTransmit
  dsimp only
  split <;> nofun

theorem lineReceive_ne_refused : lineReceive n s ≠ .refused r := by
  unfold lineReceive
  dsimp only
  split <;> nofun

/-- No agent's step is refused. -/
theorem runMove_ne_refused (m : Move) : runMove m s ≠ .refused r := by
  cases m with
  | main => exact runMain_ne_refused
  | irq n => exact exec_ne_refused _
  | ltx n => exact lineTransmit_ne_refused
  | lrx n => exact lineReceive_ne_refused

/-! ## The step -/

/-- An admitted configuration is never refused, whatever the schedule chooses. -/
theorem step_ne_refused_of_configOk (hc : configOk s.cfg = true) : step s ≠ .refused r := by
  cases hm : choose s with
  | none => simp [step, stepMachine, hc, hm]
  | some m =>
    rw [step_of_choose hc hm]
    exact runMove_ne_refused m

/-- The configuration check is the only refusal of the step. -/
theorem step_refused_capacity_iff : step s = .refused .capacity ↔ ¬ configOk s.cfg = true := by
  constructor
  · intro h hc
    exact step_ne_refused_of_configOk hc h
  · intro hc
    simp [step, stepMachine, hc]

end

/-- Settles O43: the check fails exactly where some capacity is not one of R7's powers of two, and the
step refuses exactly where the check fails. -/
theorem badCapacityIsRefused : Obligations.BadCapacityIsRefused := by
  unfold Obligations.BadCapacityIsRefused
  intro s
  simp only [step_refused_capacity_iff, configOk_iff, capacityOk_iff, not_forall, not_and_or]

end Sys2Proof.Machine

/-! PROOF. 10_state.md: the values after reset (R43), the invariant there (R142), the STATUS and queue
images (R39, R41), who moves LIFE, the rate fields and the cursors (R22 to R24, R32), and the mainline's
position as the step it names (R37). -/

namespace Sys2Proof.Machine

/-! ## The fields of RATE after reset and after a read-modify-write (R24, R83) -/

@[simp] theorem sbrOf_rateAtReset (o : BitVec 14) : sbrOf (rateAtReset o) = 0#13 :=
  BitVec.extractLsb'_append_eq_right

@[simp] theorem brfaOf_rateAtReset (o : BitVec 14) : brfaOf (rateAtReset o) = 0#5 := by
  unfold brfaOf rateAtReset
  rw [BitVec.extractLsb'_append_eq_of_le (by decide), BitVec.extractLsb'_append_eq_of_le (by decide)]
  exact BitVec.extractLsb'_append_eq_right

/-- OTH1 and OTH0 are the upper 11 and the lower 3 bits of RATE_OTHER_RESET (R24). -/
@[simp] theorem otherOf_rateAtReset (o : BitVec 14) : otherOf (rateAtReset o) = o := by
  unfold otherOf rateAtReset
  have oth1 : (o.extractLsb' 3 11 ++ 0#5 ++ o.extractLsb' 0 3 ++ 0#13).extractLsb' 21 11 =
      o.extractLsb' 3 11 := by
    rw [BitVec.extractLsb'_append_eq_of_le (by decide),
      BitVec.extractLsb'_append_eq_of_le (by decide), BitVec.extractLsb'_append_eq_of_le (by decide)]
    exact BitVec.extractLsb'_eq_self
  have oth0 : (o.extractLsb' 3 11 ++ 0#5 ++ o.extractLsb' 0 3 ++ 0#13).extractLsb' 13 3 =
      o.extractLsb' 0 3 := by
    rw [BitVec.extractLsb'_append_eq_of_le (by decide)]
    exact BitVec.extractLsb'_append_eq_right
  rw [oth1, oth0, BitVec.extractLsb'_append_extractLsb'_eq_extractLsb' (by decide)]
  exact BitVec.extractLsb'_eq_self

/-- The mask of rateWrite is 0 on SBR and on BRFA (R83). -/
theorem rateMask_clear : (∀ i < 13, (0xFFE0E000#32).getLsbD i = false) ∧
    ∀ i < 5, (0xFFE0E000#32).getLsbD (16 + i) = false := by decide

@[simp] theorem sbrOf_rateMerge (v : Word) (d : BitVec 13) (f : BitVec 5) :
    sbrOf (rateMerge v d f) = d := by
  apply BitVec.eq_of_getLsbD_eq
  intro i hi
  simp only [sbrOf, rateMerge, ratePair, BitVec.getLsbD_extractLsb', BitVec.getLsbD_or,
    BitVec.getLsbD_and, Nat.zero_add, rateMask_clear.1 i hi]
  simp [hi, show i < 32 by omega, show i < 16 by omega]

@[simp] theorem brfaOf_rateMerge (v : Word) (d : BitVec 13) (f : BitVec 5) :
    brfaOf (rateMerge v d f) = f := by
  apply BitVec.eq_of_getLsbD_eq
  intro i hi
  have hd : d.getLsbD (16 + i) = false := BitVec.getLsbD_of_ge _ _ (by omega)
  simp only [brfaOf, rateMerge, ratePair, BitVec.getLsbD_extractLsb', BitVec.getLsbD_or,
    BitVec.getLsbD_and, rateMask_clear.2 i hi]
  simp [hi, hd, show 16 + i < 32 by omega]

/-! ## Reset (R43) -/

/-- Settles O44: each UART is at reset under its own parameters, and the three parts of its RATE are as
R24 lays them out. -/
theorem resetValues : Obligations.ResetValues := by
  unfold Obligations.ResetValues
  intro c wire0 wire1 p
  refine ⟨rfl, rfl, rfl, rfl, fun n => ?_⟩
  obtain ⟨wire, hu⟩ := resetWith_uart n c wire0 wire1 p
  rw [hu]
  simp [Uart.reset, txIrq, rxIrq, Memory.read]

@[simp] theorem occupancy_self (C w : Nat) : occupancy C w w = 0 := by simp [occupancy]

/-- At reset a UART is disabled, and both its queues are empty at slot 0. -/
theorem instanceInv_reset {c : InstConfig} (hTx : capacityOk c.capTx = true)
    (hRx : capacityOk c.capRx = true) (wire : List Byte) : InstanceInv c (Uart.reset c wire) := by
  obtain ⟨tx, -⟩ := capacityOk_bounds hTx
  obtain ⟨rx, -⟩ := capacityOk_bounds hRx
  have hcursor : CursorInv c (Uart.reset c wire) := by
    unfold CursorInv
    simp only [Uart.reset]
    omega
  have hwritten : WrittenInv c (Uart.reset c wire) := by
    simp [WrittenInv, txQueue, rxQueue, Uart.reset, slotsFrom]
  exact ⟨⟨rfl, ⟨rfl, rfl, rfl, rfl, rfl, rfl⟩, rfl, rfl, rfl, rfl⟩, hcursor, ⟨rfl, rfl, rfl, rfl⟩,
    hwritten, ⟨nofun, nofun⟩, otherOf_rateAtReset _⟩

/-- Settles O45: both UARTs meet their part at reset, none runs, the mainline is idle and no fault is
recorded. -/
theorem resetMeetsInvariant : Obligations.ResetMeetsInvariant := by
  unfold Obligations.ResetMeetsInvariant
  intro c wire0 wire1 p hc
  refine machineInv_of hc (fun n => ?_) (fun n => ?_) trivial (.inl rfl)
  · obtain ⟨wire, hu⟩ := resetWith_uart n c wire0 wire1 p
    obtain ⟨hTx, hRx⟩ := configOk_iff (s := State.resetWith c wire0 wire1 p) |>.1 hc n
    rw [hu]
    exact instanceInv_reset hTx hRx wire
  · obtain ⟨wire, hu⟩ := resetWith_uart n c wire0 wire1 p
    rw [hu]
    nofun

/-! ## The images STAT selects -/

section
variable (s : State) (n : Inst)

@[simp] theorem image_status :
    image s n 0#8 = some (statusImage (s.params n) s.cfg.txIdlePolicy (s.uart n)) := rfl

@[simp] theorem image_txq : image s n 4#8 =
    some (queueImage (s.params n).capTx (s.uart n).twr (s.uart n).trd) := rfl

@[simp] theorem image_rxq : image s n 5#8 =
    some (queueImage (s.params n).capRx (s.uart n).rwr (s.uart n).rrd) := rfl

end

/-! ## The STATUS image (R39) -/

theorem bitAt_getLsbD (b : Bool) {k : Nat} (hk : k < 32) (i : Nat) :
    (bitAt b k).getLsbD i = (b && decide (i = k)) := by
  cases b with
  | false => simp [bitAt]
  | true =>
    by_cases h : i = k
    · simp [bitAt, h, hk]
    · simp only [bitAt, h, ↓reduceIte, BitVec.getLsbD_shiftLeft, BitVec.getLsbD_one]
      grind

/-- LIFE's encoding takes two bits (R22). -/
theorem lifeBits_getLsbD_high (l : Life) {i : Nat} (hi : 2 ≤ i) : (lifeBits l).getLsbD i = false := by
  have hlt : (lifeBits l).toNat < 2 ^ 2 := by cases l <;> decide
  exact Nat.testBit_lt_two_pow (hlt.trans_le (Nat.pow_le_pow_right (by decide) hi))

section
variable (c : InstConfig) (policy : TxIdlePolicy) (u : Uart)

/-- The image bit by bit: LIFE's two bits, then one bit per row of R39's table. -/
theorem statusImage_getLsbD (i : Nat) : (statusImage c policy u).getLsbD i =
    ((lifeBits u.life).getLsbD i || u.prdy && decide (i = 2) || u.te && decide (i = 3) ||
      u.re && decide (i = 4) || u.tie && decide (i = 5) || u.rie && decide (i = 6) ||
      u.tdre && decide (i = 7) || u.rdrf && decide (i = 8) || u.ovr && decide (i = 9) ||
      decide (c.mode = .polled) && decide (i = 10) ||
      decide (policy = .keepArmed) && decide (i = 11)) := by
  simp only [statusImage, BitVec.getLsbD_or, bitAt_getLsbD, Nat.reduceLT]

theorem statusImage_life :
    (statusImage c policy u).extractLsb' 0 2 = (lifeBits u.life).extractLsb' 0 2 := by
  apply BitVec.eq_of_getLsbD_eq
  intro i hi
  have h : ∀ k, 2 ≤ k → i ≠ k := by omega
  simp only [BitVec.getLsbD_extractLsb', statusImage_getLsbD, Nat.zero_add]
  simp [h]

/-- Bits 31 to 12 read as 0. -/
theorem statusImage_high : (statusImage c policy u).extractLsb' 12 20 = 0#20 := by
  apply BitVec.eq_of_getLsbD_eq
  intro i _
  have h : ∀ k < 12, 12 + i ≠ k := by omega
  simp only [BitVec.getLsbD_extractLsb', statusImage_getLsbD,
    lifeBits_getLsbD_high u.life (show 2 ≤ 12 + i by omega)]
  simp [h]

/-- After reset TDRE is 1, and beside it only the two build parameters show. -/
theorem statusImage_reset (wire : List Byte) :
    statusImage c policy (Uart.reset c wire) = (0x00000080#32 |||
      ((if c.mode = .polled then 1#32 else 0#32) <<< 10) |||
      ((if policy = .keepArmed then 1#32 else 0#32) <<< 11)) := by
  simp only [statusImage, Uart.reset]
  generalize c.mode = mode
  cases mode <;> cases policy <;> decide

end

/-- Settles O18: each field is read off the image bit by bit; above LIFE's two bits, LIFE adds nothing. -/
theorem statusImageFields : Obligations.StatusImageFields := by
  unfold Obligations.StatusImageFields
  constructor
  · intro s n
    refine ⟨_, image_status s n, ?_, ?_, ?_, ?_, ?_, ?_, ?_, ?_, ?_, ?_, ?_, statusImage_high ..⟩
    · rw [statusImage_life]
      cases (s.uart n).life <;> rfl
    all_goals
      rw [statusImage_getLsbD, lifeBits_getLsbD_high _ (by decide)]
      simp
  · intro c wire0 wire1 p n
    obtain ⟨wire, hu⟩ := resetWith_uart n c wire0 wire1 p
    rw [image_status, hu, resetWith_params, resetWith_cfg, statusImage_reset]

/-! ## The queue images (R41) -/

/-- Four bytes ored in at their positions are the four bytes side by side. -/
theorem bytes_or_eq_append (a b c d : Byte) :
    (d.setWidth 32 <<< 0 ||| c.setWidth 32 <<< 8 ||| b.setWidth 32 <<< 16 |||
      a.setWidth 32 <<< 24 : Word) = a ++ b ++ c ++ d := by
  apply BitVec.eq_of_getLsbD_eq
  intro i hi
  rw [BitVec.getLsbD_append, BitVec.getLsbD_append, BitVec.getLsbD_append]
  simp only [BitVec.getLsbD_or, BitVec.getLsbD_shiftLeft, BitVec.getLsbD_setWidth]
  interval_cases i <;> simp

theorem bytes_append_fields (a b c d : Byte) :
    (a ++ b ++ c ++ d).extractLsb' 0 8 = d ∧ (a ++ b ++ c ++ d).extractLsb' 8 8 = c ∧
    (a ++ b ++ c ++ d).extractLsb' 16 8 = b ∧ (a ++ b ++ c ++ d).extractLsb' 24 8 = a := by
  have above {v w start : Nat} (x : BitVec v) (y : BitVec w) (h : w ≤ start) :
      (x ++ y).extractLsb' start 8 = x.extractLsb' (start - w) 8 :=
    BitVec.extractLsb'_append_eq_of_le h
  refine ⟨?_, ?_, ?_, ?_⟩
  · exact BitVec.extractLsb'_append_eq_right
  · rw [above _ d (by decide)]
    exact BitVec.extractLsb'_append_eq_right
  · rw [above _ d (by decide), above _ c (by decide)]
    exact BitVec.extractLsb'_append_eq_right
  · rw [above _ d (by decide), above _ c (by decide), above _ b (by decide)]
    exact BitVec.extractLsb'_eq_self

/-- A queue image is C-1, the occupancy, the write and the read cursor, a byte each. -/
theorem queueImage_eq_append (C w r : Nat) : queueImage C w r =
    BitVec.ofNat 8 (C - 1) ++ BitVec.ofNat 8 (occupancy C w r) ++ BitVec.ofNat 8 w ++
      BitVec.ofNat 8 r :=
  bytes_or_eq_append ..

/-- The occupancy of R17, on the integers. -/
theorem occupancy_cast {C : Nat} (hC : C ≠ 0) (w r : Nat) :
    (occupancy C w r : Int) = ((w : Int) - r) % C :=
  Int.toNat_of_nonneg (Int.emod_nonneg _ (by omega))

/-- The four fields of an image: under an admitted capacity each of them fits its byte. -/
theorem queueImage_fields {C w r : Nat} (hC : capacityOk C = true) (hw : w < C) (hr : r < C) :
    ((queueImage C w r).extractLsb' 0 8).toNat = r ∧
    ((queueImage C w r).extractLsb' 8 8).toNat = w ∧
    (((queueImage C w r).extractLsb' 16 8).toNat : Int) = ((w : Int) - r) % C ∧
    ((queueImage C w r).extractLsb' 24 8).toNat = C - 1 := by
  obtain ⟨hlo, hhi⟩ := capacityOk_bounds hC
  have hocc : occupancy C w r < C := occupancy_lt hw hr
  have fits {x : Nat} (h : x < C) : (BitVec.ofNat 8 x).toNat = x :=
    Nat.mod_eq_of_lt (h.trans_le hhi)
  obtain ⟨read, write, occ, last⟩ := bytes_append_fields (BitVec.ofNat 8 (C - 1))
    (BitVec.ofNat 8 (occupancy C w r)) (BitVec.ofNat 8 w) (BitVec.ofNat 8 r)
  rw [queueImage_eq_append, read, write, occ, last, fits hr, fits hw, fits hocc,
    fits (show C - 1 < C by omega), occupancy_cast (by omega)]
  exact ⟨rfl, rfl, rfl, rfl⟩

/-- With both cursors at 0 only the field of C-1 is left, whatever the capacity. -/
theorem queueImage_zero (C : Nat) : queueImage C 0 0 = BitVec.ofNat 32 (C - 1) <<< 24 := by
  apply BitVec.eq_of_toNat_eq
  simp [queueImage, byteField, Nat.shiftLeft_eq]
  omega

/-- Settles O19: both images are the same function of their queue's capacity and cursors. -/
theorem queueImageFields : Obligations.QueueImageFields := by
  unfold Obligations.QueueImageFields
  constructor
  · rintro s n hTx hRx ⟨htwr, htrd, hrwr, hrrd⟩
    obtain ⟨t0, t8, t16, t24⟩ := queueImage_fields hTx htwr htrd
    exact ⟨_, _, image_txq s n, image_rxq s n, t0, t8, t16, t24, queueImage_fields hRx hrwr hrrd⟩
  · intro c wire0 wire1 p n
    obtain ⟨wire, hu⟩ := resetWith_uart n c wire0 wire1 p
    rw [image_txq, image_rxq, hu, resetWith_params]
    exact ⟨congrArg some (queueImage_zero _), congrArg some (queueImage_zero _)⟩

/-! ## The mainline's position (R37) -/

/-- Settles O40: the chosen move is the mainline's, and a busy mainline's step is the one ML names. -/
theorem stepResumesRequestInProgress : Obligations.StepResumesRequestInProgress := by
  unfold Obligations.StepResumesRequestInProgress
  intro s hc hm hbusy
  calc step s = runMain (advance s) := step_of_choose hc hm
    _ = resume (advance s) := runMain_of_busy hbusy

/-! ## What an arriving byte and START leave unchanged -/

/-- An arriving byte touches RDR, RDRF and OVR alone (R118). -/
theorem receive_eq (v : Byte) (u : Uart) : receive v u =
    { u with rdr := (receive v u).rdr, rdrf := (receive v u).rdrf, ovr := (receive v u).ovr } := by
  obtain ⟨-, h⟩ | ⟨-, -, h⟩ | ⟨-, -, h⟩ := receive_cases v u <;> rw [h]

/-- START sets control bits and LIFE alone (R111). -/
theorem enable_eq (mode : ChanMode) (u : Uart) : enable mode u =
    { u with te := true, re := true, rie := (enable mode u).rie, tie := (enable mode u).tie,
             life := .running } := by
  cases mode <;> rfl

/-! ## LIFE and the rate fields (R22 to R24) -/

/-- LIFE, RATE and BAUD are the same before and after. -/
def SameSetup (u v : Uart) : Prop := v.life = u.life ∧ v.rate = u.rate ∧ v.baud = u.baud

/-- Of all steps only a mainline step that runs INIT or START changes LIFE, RATE or BAUD. -/
theorem uartEffect_setup {s t : State} {m : Move} {n : Inst} (e : UartEffect s m n t) :
    SameSetup (s.uart n) (t.uart n) ∨
    (m = .main ∧ s.ml = .idle ∧ (s.uart n).life = .uninit ∧ ∃ r rest baud d f,
      s.program = r :: rest ∧ decode r = .ok (.init n baud) ∧
      rateCalc (s.params n).moduleClockHz baud = .ok (d, f) ∧
      t.uart n = configure (s.uart n) baud d f) ∨
    (m = .main ∧ s.ml = .idle ∧ (s.uart n).life = .configured ∧ ∃ r rest,
      s.program = r :: rest ∧ decode r = .ok (.start n) ∧
      t.uart n = enable (s.params n).mode (s.uart n)) := by
  unfold SameSetup
  cases e with
  | configured hm hml r rest baud hp hd d f hl hr h =>
    exact .inr (.inl ⟨hm, hml, hl, r, rest, baud, d, f, hp, hd, hr, h⟩)
  | enabled hm hml r rest hp hd hl h => exact .inr (.inr ⟨hm, hml, hl, r, rest, hp, hd, h⟩)
  | txEmpty hm hx he h => rw [h, disarmIfEmpty_eq]; exact .inl ⟨rfl, rfl, rfl⟩
  | txSent hm hx b he h => rw [h, disarmIfEmpty_eq]; exact .inl ⟨rfl, rfl, rfl⟩
  | received hm v rest hw h => rw [h, receive_eq]; exact .inl ⟨rfl, rfl, rfl⟩
  | _ => rename_i h; rw [h]; exact .inl ⟨rfl, rfl, rfl⟩

/-- Settles O55: LIFE changes only in a step that runs INIT or START, and these two leave CONFIGURED and
RUNNING. -/
theorem lifecycleMovesForward : Obligations.LifecycleMovesForward := by
  unfold Obligations.LifecycleMovesForward
  intro s t n hs hlife
  obtain ⟨-, m, hm, -, -⟩ := step_next hs
  obtain ⟨hkeep, -⟩ | ⟨rfl, hml, hl, r, rest, baud, d, f, hp, hd, -, h⟩ |
    ⟨rfl, hml, hl, r, rest, hp, hd, h⟩ := uartEffect_setup (step_effect n hm hs).1
  · exact absurd hkeep hlife
  · exact ⟨hm, hml, r, rest, hp, .inl ⟨hl, by rw [h]; rfl, baud, hd⟩⟩
  · exact ⟨hm, hml, r, rest, hp, .inr ⟨hl, by rw [h, enable_eq], hd⟩⟩

/-- What RateInv asks of one UART whose module clock is `clk`. -/
def RateFieldsInv (clk : Word) (u : Uart) : Prop :=
  if u.life = .uninit then sbrOf u.rate = 0#13 ∧ brfaOf u.rate = 0#5 ∧ u.baud = 0#32
  else rateCalc clk u.baud = .ok (sbrOf u.rate, brfaOf u.rate)

theorem rateInv_iff {s : State} :
    RateInv s ↔ ∀ n, RateFieldsInv (s.params n).moduleClockHz (s.uart n) := by
  refine forall_congr' fun n => ?_
  unfold RateFieldsInv
  cases h : (s.uart n).life <;> simp

/-- INIT writes the pair rateCalc gave it and the baud rate it gave it for (R109). -/
theorem rateFieldsInv_configure {clk baud : Word} {d : BitVec 13} {f : BitVec 5} (u : Uart)
    (hr : rateCalc clk baud = .ok (d, f)) : RateFieldsInv clk (configure u baud d f) := by
  simpa [RateFieldsInv, configure, rateWrite] using hr

/-- Settles O56: INIT writes the pair rateCalc gave it, START only follows INIT, and no other step writes
LIFE, RATE or BAUD. -/
theorem rateFieldsStayThoseOfBaud : Obligations.RateFieldsStayThoseOfBaud := by
  unfold Obligations.RateFieldsStayThoseOfBaud
  intro s t hinv hs
  obtain ⟨-, m, hm, -, -⟩ := step_next hs
  rw [rateInv_iff] at hinv ⊢
  intro n
  have hn := hinv n
  obtain ⟨heff, hcfg⟩ := step_effect n hm hs
  have hparams : t.params n = s.params n := congrArg (·.inst n) hcfg
  rw [hparams]
  obtain ⟨hlife, hrate, hbaud⟩ | ⟨-, -, -, -, -, baud, d, f, -, -, hr, h⟩ |
    ⟨-, -, hl, -, -, -, -, h⟩ := uartEffect_setup heff
  · unfold RateFieldsInv at hn ⊢
    rw [hlife, hrate, hbaud]
    exact hn
  · rw [h]
    exact rateFieldsInv_configure _ hr
  · rw [h, enable_eq]
    simpa [RateFieldsInv, hl] using hn

/-! ## The cursors (R32) -/

/-- Settles O52: of all effects of a step, four move one cursor each, INIT's sets all four to 0, and the
others move none. -/
theorem oneWriterPerCursor : Obligations.OneWriterPerCursor := by
  unfold Obligations.OneWriterPerCursor
  intro s t m n hm hs
  cases (step_effect n hm hs).1 with
  | configured hm hml r rest baud hp hd d f hl hr h =>
    have initialises : m = .main ∧ (s.uart n).life = .uninit ∧ (t.uart n).life = .configured :=
      ⟨hm, hl, by rw [h]; rfl⟩
    exact ⟨fun _ => .inr initialises, fun _ => .inr initialises, fun _ => .inr initialises,
      fun _ => .inr initialises⟩
  | published w b hm hml h =>
    rw [h]
    exact ⟨fun _ => .inl ⟨hm, w, b, hml⟩, (absurd rfl ·), (absurd rfl ·), (absurd rfl ·)⟩
  | txSent hm hx b he h =>
    rw [h, disarmIfEmpty_eq]
    exact ⟨(absurd rfl ·), fun _ => .inl ⟨hm, hx⟩, (absurd rfl ·), (absurd rfl ·)⟩
  | rxStored hm hx v h =>
    rw [h]
    exact ⟨(absurd rfl ·), (absurd rfl ·), fun _ => .inl ⟨hm, hx⟩, (absurd rfl ·)⟩
  | consumed r v hm hml h =>
    rw [h]
    exact ⟨(absurd rfl ·), (absurd rfl ·), (absurd rfl ·), fun _ => .inl ⟨hm, r, v, hml⟩⟩
  | enabled hm hml r rest hp hd hl h =>
    rw [h, enable_eq]
    exact ⟨(absurd rfl ·), (absurd rfl ·), (absurd rfl ·), (absurd rfl ·)⟩
  | txEmpty hm hx he h =>
    rw [h, disarmIfEmpty_eq]
    exact ⟨(absurd rfl ·), (absurd rfl ·), (absurd rfl ·), (absurd rfl ·)⟩
  | received hm v rest hw h =>
    rw [h, receive_eq]
    exact ⟨(absurd rfl ·), (absurd rfl ·), (absurd rfl ·), (absurd rfl ·)⟩
  | _ =>
    rename_i h
    rw [h]
    exact ⟨(absurd rfl ·), (absurd rfl ·), (absurd rfl ·), (absurd rfl ·)⟩

end Sys2Proof.Machine

/-! PROOF. 20_memory.md: which agents have a step (R51 to R53), which of them takes it (R55, R56), that a
placed instruction is the one the next step runs (R126, R128), and how a run ends (R58). -/

namespace Sys2Proof.Machine

section
variable {s : State} {n : Inst} {m : Move} {u : Uart}

/-! ## When an agent has a step (R51 to R53) -/

theorem txIrq_iff : txIrq u = true ↔ u.tie = true ∧ u.tdre = true := Bool.and_eq_true_iff

theorem rxIrq_iff : rxIrq u = true ↔ u.rie = true ∧ u.rdrf = true := Bool.and_eq_true_iff

theorem pending_iff : pending u = true ↔
    (u.tie = true ∧ u.tdre = true) ∨ (u.rie = true ∧ u.rdrf = true) := by
  rw [pending, Bool.or_eq_true_iff, txIrq_iff, rxIrq_iff]

theorem anyPending_eq_false_iff : anyPending s = false ↔ ∀ n, pending (s.uart n) = false := by
  rw [anyPending, Bool.or_eq_false_iff]
  constructor
  · rintro ⟨h0, h1⟩ n
    cases n with
    | i0 => exact h0
    | i1 => exact h1
  · exact fun h => ⟨h .i0, h .i1⟩

/-- The guards of R53: an idle mainline needs an offer, and of the busy positions only the two of the polled
API wait. -/
theorem mainReady_iff : mainReady s = true ↔
    (s.ml = .idle ∧ s.program ≠ []) ∨
    (s.ml ≠ .idle ∧ (∀ n b, s.ml = .bputM2 n b → (s.uart n).tdre = true) ∧
      (∀ n, s.ml = .bgetM2 n → (s.uart n).rdrf = true)) := by
  unfold mainReady
  cases s.ml <;> simp

theorem enabled_main_iff : enabled s .main = true ↔
    s.fault.valid = false ∧ (∀ n, pending (s.uart n) = false) ∧ mainReady s = true := by
  simp [enabled, anyPending_eq_false_iff]

theorem enabled_irq_iff : enabled s (.irq n) = true ↔
    s.fault.valid = false ∧ pending (s.uart n) = true := by
  simp [enabled]

theorem enabled_ltx_iff : enabled s (.ltx n) = true ↔
    s.fault.valid = false ∧ (s.uart n).te = true ∧ (s.uart n).tdre = false := by
  simp [enabled, ltxReady]

theorem enabled_lrx_iff : enabled s (.lrx n) = true ↔
    s.fault.valid = false ∧ (s.uart n).wireIn ≠ [] := by
  simp [enabled, lrxReady]

theorem enabled_eq_false_of_faulted (h : s.fault.valid = true) (m : Move) : enabled s m = false := by
  simp [enabled, h]

/-! ## The choice among the moves that have a step (R56) -/

theorem choose_eq_none_iff : choose s = none ↔ ∀ m, enabled s m = false := by
  have hempty : choose s = none ↔ enabledMoves s = [] := by
    unfold choose
    split <;> simp [*]
  simp [hempty, List.eq_nil_iff_forall_not_mem]

theorem pick_of_agenda {a b : Move} {ms rest : List Move} (ha : s.agenda = a :: rest)
    (h : a ∈ b :: ms) : pick s b ms = a := by
  simp only [pick, ha, if_pos h]

/-- The agenda's head is the move taken where it has a step. -/
theorem choose_of_agenda {rest : List Move} (ha : s.agenda = m :: rest) (h : enabled s m = true) :
    choose s = some m := by
  rw [← mem_enabledMoves] at h
  unfold choose
  split
  case h_1 hnone =>
    rw [hnone] at h
    cases h
  case h_2 a hone =>
    rw [hone, List.mem_singleton] at h
    rw [h]
  case h_3 a b ms hmany =>
    rw [hmany] at h
    rw [pick_of_agenda ha h]

/-! ## The chosen move's step -/

theorem runMove_main : runMove .main s = runMain s := rfl

theorem runMain_of_offer {r : Request} {rest : List Request} {i : Instr} (hml : s.ml = .idle)
    (hp : s.program = r :: rest) (hd : decodeMainline r = .ok i) :
    runMain s = exec i (takeRequest rest s) := by
  simp only [runMain, hml, hp, hd]

theorem runMove_irq_of_rxIrq (h : rxIrq (s.uart n) = true) : runMove (.irq n) s = exec (.rxi n) s := by
  simp only [runMove, arbitrate, if_pos h]

theorem runMove_irq_of_not_rxIrq (h : ¬ rxIrq (s.uart n) = true) :
    runMove (.irq n) s = exec (.txi n) s := by
  simp only [runMove, arbitrate, if_neg h]

end

/-- Settles O34: a valid record disables every move, so none is chosen and the step names the reason. -/
theorem faultedMachineHasNoStep : Obligations.FaultedMachineHasNoStep := by
  unfold Obligations.FaultedMachineHasNoStep
  intro s hv
  have hnone := enabled_eq_false_of_faulted hv
  have hchoose := choose_eq_none_iff.2 hnone
  exact ⟨hnone, hchoose, fun hc => by simp [step, stepMachine, hc, hchoose, stopReason, hv]⟩

/-- Settles O35: no source of either UART is pending, and R53's case of the position has a step. -/
theorem mainlineHasStepExactly : Obligations.MainlineHasStepExactly := by
  unfold Obligations.MainlineHasStepExactly
  intro s
  simp only [enabled_main_iff, mainReady_iff, ← Bool.not_eq_true, pending_iff, not_or]

/-- Settles O36: the interrupt agent's moves are the UARTs with a source pending, and where RXIRQ is not
that source TXIRQ is. -/
theorem interruptHasStepExactly : Obligations.InterruptHasStepExactly := by
  unfold Obligations.InterruptHasStepExactly
  intro s
  constructor
  · simp only [enabled_irq_iff, pending_iff, exists_and_left]
  · intro n hc hm
    obtain ⟨-, hpending⟩ := enabled_irq_iff.1 (choose_enabled hm)
    rw [step_of_choose hc hm, ← rxIrq_iff]
    refine ⟨fun hrx => runMove_irq_of_rxIrq (by simpa using hrx), fun hrx => ?_⟩
    obtain ⟨htie, htdre⟩ := (pending_iff.1 hpending).resolve_right (rxIrq_iff.not.1 hrx)
    exact ⟨htie, htdre, runMove_irq_of_not_rxIrq (by simpa using hrx)⟩

/-- Settles O37: a move that has a step is taken where the agenda names it, and what is taken is always one
of the moves that have a step. -/
theorem everyOrderIsAdmitted : Obligations.EveryOrderIsAdmitted := by
  unfold Obligations.EveryOrderIsAdmitted
  exact ⟨fun _ _ h => choose_of_agenda rfl h, fun _ _ => choose_enabled, fun _ => choose_eq_none_iff⟩

/-- Settles O39: the chosen move is the mainline's, and an idle mainline takes the request offered. -/
theorem stepRunsDecodedInstruction : Obligations.StepRunsDecodedInstruction := by
  unfold Obligations.StepRunsDecodedInstruction
  intro s r rest i hc hm hml hp hd hentry
  calc step s = runMain (advance s) := step_of_choose hc hm
    _ = exec i (takeRequest rest (advance s)) :=
      runMain_of_offer hml hp (decodeMainline_ok.2 ⟨hd, hentry⟩)

/-! ## Placing an instruction (R126, R128) -/

section
variable {s : State} {n : Inst} {m : Move} {r : Request} {i : Instr}

theorem decode_of_decodeTableWord {nbits w : Nat} (h : decodeTableWord nbits w = some i) :
    decode (requestOfTableWord nbits w) = .ok i := by
  unfold decodeTableWord at h
  split at h
  · rename_i j hj
    rw [hj, Option.some.inj h]
  · cases h

/-- A quiet UART has no source pending (R34). -/
theorem pending_quiet (u : Uart) : pending (quiet u) = false := by
  simp [pending, txIrq, rxIrq, quiet, Bool.and_assoc]

/-- A move let go is the next step's, and what the step runs in is the state before but for the record. -/
theorem step_letGo (he : enabled (letGo m s) m = true) (hc : configOk s.cfg = true) :
    step (letGo m s) =
      runMove m { s with fault := { s.fault with valid := false }, tick := s.tick + 1 } :=
  step_of_choose (s := letGo m s) hc (choose_of_agenda rfl he)

theorem place_of_not_entryPoint (hd : decode r = .ok i) (h : i.isEntryPoint = false) :
    place r s = placeRequest r s := by
  unfold place
  rw [hd]
  cases i with
  | txi n => cases h
  | rxi n => cases h
  | _ => rfl

theorem place_of_txi (hd : decode r = .ok (.txi n)) : place r s = placeTxi n s := by
  simp only [place, hd]

theorem place_of_rxi (hd : decode r = .ok (.rxi n)) : place r s = placeRxi n s := by
  simp only [place, hd]

/-- A placed request finds no line pending and the mainline idle, so that it is the offer taken. -/
theorem step_placeRequest (hc : configOk s.cfg = true) (hd : decodeMainline r = .ok i) :
    step (placeRequest r s) = exec i { s with
      u0 := quiet s.u0, u1 := quiet s.u1, fault := { s.fault with valid := false }, ml := .idle,
      tick := s.tick + 1 } := by
  have hready : enabled (placeRequest r s) .main = true := by
    refine enabled_main_iff.2 ⟨rfl, fun n => ?_, rfl⟩
    cases n with
    | i0 => exact pending_quiet s.u0
    | i1 => exact pending_quiet s.u1
  rw [placeRequest, step_letGo hready hc, runMove_main,
    runMain_of_offer (rest := s.program) rfl rfl hd, takeRequest]

/-- A source of UART `n` made pending: the arbiter runs RXI if that is RXIRQ, otherwise TXI (R128 b). -/
theorem step_letGo_irq {u : Uart} (hc : configOk s.cfg = true) (hu : pending u = true) :
    step (letGo (.irq n) (s.setUart n u)) = exec (if rxIrq u then .rxi n else .txi n)
      { s.setUart n u with fault := { s.fault with valid := false }, tick := s.tick + 1 } := by
  have hready : enabled (letGo (.irq n) (s.setUart n u)) (.irq n) = true :=
    enabled_irq_iff.2 ⟨rfl, by cases n <;> exact hu⟩
  rw [step_letGo hready (by rwa [setUart_cfg]), setUart_fault, setUart_tick]
  cases n <;> rfl

/-- A placed TXI finds TXIRQ pending and RXIRQ masked. -/
theorem step_placeTxi (hc : configOk s.cfg = true) :
    step (placeTxi n s) = exec (.txi n) { s.setUart n { s.uart n with
        tie := true, tdre := true, rie := (s.uart n).rie && !(s.uart n).rdrf } with
      fault := { s.fault with valid := false }, tick := s.tick + 1 } := by
  rw [placeTxi, step_letGo_irq hc rfl, if_neg (by simp [rxIrq, Bool.and_assoc])]

/-- A placed RXI finds RXIRQ pending. -/
theorem step_placeRxi (hc : configOk s.cfg = true) :
    step (placeRxi n s) = exec (.rxi n) { s.setUart n { s.uart n with
        rie := true, rdrf := true, rdr := some ((s.uart n).rdr.getD 0#8) } with
      fault := { s.fault with valid := false }, tick := s.tick + 1 } := by
  rw [placeRxi, step_letGo_irq hc (by simp [pending, rxIrq]), show rxIrq _ = true from rfl, if_pos rfl]

end

/-- Settles O41: the three ways of placing each let the placed instruction's own move go, and that move has
a step. -/
theorem placedInstructionRunsNext : Obligations.PlacedInstructionRunsNext := by
  unfold Obligations.PlacedInstructionRunsNext State.withFetchWord
  intro s nbits w i hc hw
  have hd := decode_of_decodeTableWord hw
  refine ⟨fun hentry => ?_, ?_, ?_⟩
  · rw [place_of_not_entryPoint hd hentry]
    exact step_placeRequest hc (decodeMainline_ok.2 ⟨hd, hentry⟩)
  · rintro n rfl
    rw [place_of_txi hd]
    exact step_placeTxi hc
  · rintro n rfl
    rw [place_of_rxi hd]
    exact step_placeRxi hc

/-! ## What the step of an agent can stop with (R18, R28, R29, R47) -/

section
variable {s : State} {n : Inst} {m : Move} {f : Fault}

theorem readSlot_error {C k : Nat} {mem : Memory} (h : readSlot C mem k = .error f) :
    IsModelFault f := by
  unfold readSlot at h
  split at h
  · split at h <;> cases h
    trivial
  · cases h
    trivial

theorem writeSlot_error {C k : Nat} {mem : Memory} {b : Byte} (h : writeSlot C mem k b = .error f) :
    IsModelFault f := by
  unfold writeSlot at h
  split at h <;> cases h
  trivial

theorem readData_error {d : Option Byte} (h : readData d = .error f) : IsModelFault f := by
  unfold readData at h
  split at h <;> cases h
  trivial

theorem txSend_error {C : Nat} {u : Uart} (h : txSend C u = .error f) : IsModelFault f := by
  unfold txSend at h
  split at h
  · rename_i hslot
    cases h
    exact readSlot_error hslot
  · cases h

theorem rxStore_error {C : Nat} {u : Uart} {v : Byte} (h : rxStore C u v = .error f) :
    IsModelFault f := by
  unfold rxStore at h
  split at h
  · rename_i hslot
    cases h
    exact writeSlot_error hslot
  · cases h

theorem execTxi_fault (h : execTxi n s = .fault f) : IsModelFault f := by
  unfold execTxi at h
  dsimp only at h
  split at h
  · cases h
  · split at h
    · rename_i hsend
      cases h
      exact txSend_error hsend
    · cases h

theorem execRxi_fault (h : execRxi n s = .fault f) : IsModelFault f := by
  unfold execRxi at h
  dsimp only at h
  split at h
  · rename_i hdata
    cases h
    exact readData_error hdata
  · split at h
    · cases h
    · split at h
      · rename_i hstore
        cases h
        exact rxStore_error hstore
      · cases h

/-- A mainline request's first step answers a next state: a fault of the core is one (R122). -/
theorem exec_ne_fault {i : Instr} (hi : i.isEntryPoint = false) : exec i s ≠ .fault f := by
  cases i with
  | calcDiv clk baud =>
    simp only [exec, execCalc]
    split <;> nofun
  | init n baud =>
    simp only [exec, execInit]
    split
    · nofun
    · split <;> nofun
  | start n =>
    simp only [exec, execStart]
    split
    · nofun
    · split <;> nofun
  | put n b =>
    simp only [exec, execPut]
    split
    · nofun
    · split <;> nofun
  | get n =>
    simp only [exec, execGet]
    split
    · nofun
    · split <;> nofun
  | bput n b =>
    simp only [exec, execBput]
    split <;> nofun
  | bget n =>
    simp only [exec, execBget]
    split <;> nofun
  | stat n sel =>
    simp only [exec, execStat]
    split <;> nofun
  | txi n => cases hi
  | rxi n => cases hi

theorem exec_fault {i : Instr} (h : exec i s = .fault f) : IsModelFault f := by
  cases hi : i.isEntryPoint with
  | false => exact absurd h (exec_ne_fault hi)
  | true =>
    cases i with
    | txi n => exact execTxi_fault h
    | rxi n => exact execRxi_fault h
    | _ => cases hi

/-- A later step of a request stops only where a slot or a data register cannot be read or written. -/
theorem resume_fault (hbusy : s.ml ≠ .idle) (h : resume s = .fault f) : IsModelFault f := by
  unfold resume at h
  split at h
  case h_1 hml => exact absurd hml hbusy
  case h_2 n w b hml =>
    unfold putWrite at h
    dsimp only at h
    split at h
    · rename_i hslot
      cases h
      exact writeSlot_error hslot
    · cases h
  case h_3 => cases h
  case h_4 => cases h
  case h_5 n r hml =>
    unfold getRead at h
    split at h
    · rename_i hslot
      cases h
      exact readSlot_error hslot
    · cases h
  case h_6 => cases h
  case h_7 => cases h
  case h_8 n hml =>
    unfold bgetRead at h
    split at h
    · rename_i hdata
      cases h
      exact readData_error hdata
    · cases h

theorem runMain_fault (hready : mainReady s = true) (h : runMain s = .fault f) : IsModelFault f := by
  obtain ⟨hml, hp⟩ | ⟨hbusy, -⟩ := mainReady_iff.1 hready
  · obtain ⟨r, rest, hp⟩ := List.exists_cons_of_ne_nil hp
    simp only [runMain, hml, hp] at h
    split at h
    · cases h
    · exact exec_fault h
  · rw [runMain_of_busy hbusy] at h
    exact resume_fault hbusy h

theorem lineTransmit_fault (h : lineTransmit n s = .fault f) : IsModelFault f := by
  unfold lineTransmit at h
  dsimp only at h
  split at h
  · rename_i hdata
    cases h
    exact readData_error hdata
  · cases h

theorem lineReceive_ne_fault : lineReceive n s ≠ .fault f := by
  unfold lineReceive
  dsimp only
  split <;> nofun

/-- The step of a move that has one stops with a model fault or not at all. -/
theorem runMove_fault (he : enabled s m = true) (h : runMove m s = .fault f) : IsModelFault f := by
  cases m with
  | main =>
    obtain ⟨-, -, hready⟩ := enabled_main_iff.1 he
    exact runMain_fault hready h
  | irq n => exact exec_fault h
  | ltx n => exact lineTransmit_fault h
  | lrx n => exact absurd h lineReceive_ne_fault

/-! ## The end of a run (R58) -/

/-- Whether a move has a step does not hang on the schedule. -/
theorem enabled_advance : enabled (advance s) m = enabled s m := rfl

/-- A stop that is no model fault is the answer of a machine without a step, and names why it has none. -/
theorem step_fault_iff (hc : configOk s.cfg = true) (hf : ¬ IsModelFault f) :
    step s = .fault f ↔ (∀ m, enabled s m = false) ∧ stopReason s = f := by
  rw [← choose_eq_none_iff]
  cases hm : choose s with
  | none => simp [step, stepMachine, hc, hm]
  | some m =>
    have hmove : runMove m (advance s) ≠ .fault f := fun h =>
      hf (runMove_fault (enabled_advance.trans (choose_enabled hm)) h)
    simp [step_of_choose hc hm, hmove]

theorem stopReason_eq_halted_iff : stopReason s = .halted ↔ s.fault.valid = true := by
  unfold stopReason
  split
  · simp [*]
  · split <;> simp [*]

theorem stopReason_eq_ended_iff :
    stopReason s = .ended ↔ s.fault.valid = false ∧ s.ml = .idle := by
  unfold stopReason
  split
  · simp [*]
  · split <;> simp [*]

theorem stopReason_eq_stuck_iff :
    stopReason s = .stuck ↔ s.fault.valid = false ∧ s.ml ≠ .idle := by
  unfold stopReason
  split
  · simp [*]
  · split <;> simp [*]

/-- R58's words for a final state say that no agent has a step, with no fault and an idle mainline. -/
theorem isFinal_iff : IsFinal s ↔
    (∀ m, enabled s m = false) ∧ s.fault.valid = false ∧ s.ml = .idle := by
  constructor
  · rintro ⟨hv, hml, hp, hquiet⟩
    refine ⟨fun m => ?_, hv, hml⟩
    rw [← Bool.not_eq_true]
    cases m with
    | main => simp [enabled_main_iff, mainReady_iff, hml, hp]
    | irq n =>
      obtain ⟨htx, hrx, -, -⟩ := hquiet n
      simp [enabled_irq_iff, pending, htx, hrx]
    | ltx n =>
      obtain ⟨-, -, hline, -⟩ := hquiet n
      obtain h | h := hline <;> simp [enabled_ltx_iff, h]
    | lrx n =>
      obtain ⟨-, -, -, hwire⟩ := hquiet n
      simp [enabled_lrx_iff, hwire]
  · rintro ⟨hnone, hv, hml⟩
    simp only [← Bool.not_eq_true] at hnone
    have hquiet : ∀ n, pending (s.uart n) = false := fun n => by
      simpa [enabled_irq_iff, hv] using hnone (.irq n)
    refine ⟨hv, hml, ?_, fun n => ?_⟩
    · simpa [enabled_main_iff, mainReady_iff, hv, hml, hquiet] using hnone .main
    · obtain ⟨htx, hrx⟩ := Bool.or_eq_false_iff.1 (hquiet n)
      refine ⟨htx, hrx, ?_, by simpa [enabled_lrx_iff, hv] using hnone (.lrx n)⟩
      cases hte : (s.uart n).te with
      | false => exact .inl rfl
      | true => exact .inr (by simpa [enabled_ltx_iff, hv, hte] using hnone (.ltx n))

end

/-- Settles O42: none of the three stops is a model fault, so each is the answer of a machine without a step,
and the record and the mainline's position tell them apart. -/
theorem runEndsFaultedFinalOrStuck : Obligations.RunEndsFaultedFinalOrStuck := by
  unfold Obligations.RunEndsFaultedFinalOrStuck
  intro s hc
  refine ⟨?_, ?_, fun hnone hv hnotFinal => ?_⟩
  · rw [step_fault_iff hc id, stopReason_eq_ended_iff, isFinal_iff]
  · rw [step_fault_iff hc id, stopReason_eq_halted_iff]
    exact and_iff_right_of_imp enabled_eq_false_of_faulted
  · have hbusy : s.ml ≠ .idle := fun hml => hnotFinal (isFinal_iff.2 ⟨hnone, hv, hml⟩)
    exact (step_fault_iff hc id).2 ⟨hnone, stopReason_eq_stuck_iff.2 ⟨hv, hbusy⟩⟩

end Sys2Proof.Machine

/-! PROOF. 30_encoding.md: decoding and encoding undo each other (R64 to R67, R72), every word is one row of
the opcode map or illegal (R70, R71), what an illegal request raises, and when putString stops (R73). -/

namespace Sys2Proof

/-! ## The fields of an instruction's word (R64, R66, R67) -/

/-- OP of the instruction's row of the opcode map (R67). -/
def Instr.opBits : Instr → BitVec 4
  | .calcDiv _ _ => 1#4
  | .init _ _ => 2#4
  | .start _ => 3#4
  | .put _ _ => 4#4
  | .get _ => 5#4
  | .bput _ _ => 6#4
  | .bget _ => 7#4
  | .stat _ _ => 8#4
  | .txi _ => 9#4
  | .rxi _ => 10#4

/-- INST of the instruction's word, 0 where the instruction addresses no UART (R66, R70 d). -/
def Instr.instBit (i : Instr) : BitVec 1 := i.inst?.elim 0#1 bitOfInst

/-- DATA of the instruction's word, 0 where the operation takes none (R66, R70 c). -/
def Instr.dataByte : Instr → Byte
  | .put _ b => b
  | .bput _ b => b
  | .stat _ sel => sel
  | _ => 0#8

/-- The encoder writes the instruction's own OP, INST and DATA, and RSVD 000. -/
theorem fields_encode (i : Instr) :
    opField (encode i).opw = i.opBits ∧ rsvdField (encode i).opw = 0#3 ∧
    instField (encode i).opw = i.instBit ∧ dataField (encode i).opw = i.dataByte := by
  cases i with
  | calcDiv clk baud => exact fields_of_word_no_data 0x1000#16 .i0 rfl
  | init n baud => exact fields_of_word_no_data 0x2000#16 n rfl
  | start n => exact fields_of_word_no_data 0x3000#16 n rfl
  | put n b => exact fields_of_word 0x4000#16 n b rfl
  | get n => exact fields_of_word_no_data 0x5000#16 n rfl
  | bput n b => exact fields_of_word 0x6000#16 n b rfl
  | bget n => exact fields_of_word_no_data 0x7000#16 n rfl
  | stat n sel => exact fields_of_word 0x8000#16 n sel rfl
  | txi n => exact fields_of_word_no_data 0x9000#16 n rfl
  | rxi n => exact fields_of_word_no_data 0xA000#16 n rfl

/-- Words that agree in the four fields are the same word. -/
theorem word_ext {v w : Opw} (hop : opField v = opField w) (hrsvd : rsvdField v = rsvdField w)
    (hinst : instField v = instField w) (hdata : dataField v = dataField w) : v = w := by
  rw [word_eq_fields v, word_eq_fields w, hop, hrsvd, hinst, hdata]

@[simp] theorem bitOfInst_instOfBit (b : BitVec 1) : bitOfInst (instOfBit b) = b := by
  revert b
  decide

/-! ## What the decoder accepts and rejects -/

theorem noData_ok {data : Byte} {i j : Instr} : noData data i = .ok j ↔ data = 0#8 ∧ i = j := by
  unfold noData
  split <;> simp [*]

theorem noData_error {data : Byte} {i : Instr} {e : DecodeError} :
    noData data i = .error e ↔ data ≠ 0#8 ∧ .nonzeroData = e := by
  unfold noData
  split <;> simp [*]

theorem decode_encode {i : Instr} (hwf : i.wellFormed = true) : decode (encode i) = .ok i := by
  obtain ⟨hop, hrsvd, hinst, hdata⟩ := fields_encode i
  rw [decode, hop, hrsvd, hinst, hdata]
  cases i with
  | calcDiv clk baud => rfl
  | stat n sel =>
    have hsel : sel.toNat ≤ 6 := by simpa [Instr.wellFormed] using hwf
    simp [decodeFields, Instr.opBits, Instr.instBit, Instr.inst?, Instr.dataByte, hsel]
  | _ => simp [encode, decodeFields, noData, Instr.opBits, Instr.instBit, Instr.inst?, Instr.dataByte]

/-- The fields of a word that decodes are those of its instruction. -/
theorem decodeFields_ok {op : Nat} {rsvd : BitVec 3} {inst : BitVec 1} {data : Byte} {opa opb : Word}
    {i : Instr} (h : decodeFields op rsvd inst data opa opb = .ok i) :
    op = i.opBits.toNat ∧ rsvd = 0#3 ∧ inst = i.instBit ∧ data = i.dataByte ∧ i.wellFormed = true := by
  unfold decodeFields at h
  split at h
  case isFalse => cases h
  case isTrue hrsvd =>
    split at h
    case h_1 =>
      split at h
      case isTrue hinst =>
        obtain ⟨hdata, rfl⟩ := noData_ok.1 h
        exact ⟨rfl, hrsvd, hinst, hdata, rfl⟩
      case isFalse => cases h
    case h_4 =>
      cases h
      exact ⟨rfl, hrsvd, (bitOfInst_instOfBit inst).symm, rfl, rfl⟩
    case h_6 =>
      cases h
      exact ⟨rfl, hrsvd, (bitOfInst_instOfBit inst).symm, rfl, rfl⟩
    case h_8 =>
      split at h
      case isTrue hsel =>
        cases h
        exact ⟨rfl, hrsvd, (bitOfInst_instOfBit inst).symm, rfl, decide_eq_true hsel⟩
      case isFalse => cases h
    case h_11 => cases h
    all_goals
      obtain ⟨hdata, rfl⟩ := noData_ok.1 h
      exact ⟨rfl, hrsvd, (bitOfInst_instOfBit inst).symm, hdata, rfl⟩

theorem wellFormed_of_decode {r : Request} {i : Instr} (h : decode r = .ok i) : i.wellFormed = true := by
  obtain ⟨-, -, -, -, hwf⟩ := decodeFields_ok h
  exact hwf

/-- A word is the encoding of what it decodes to: the encoder writes the four fields the decoder read. -/
theorem encode_opw_of_decode {r : Request} {i : Instr} (h : decode r = .ok i) :
    (encode i).opw = r.opw := by
  obtain ⟨hop, hrsvd, hinst, hdata, -⟩ := decodeFields_ok h
  obtain ⟨eop, ersvd, einst, edata⟩ := fields_encode i
  exact word_ext (eop.trans (BitVec.eq_of_toNat_eq hop).symm) (ersvd.trans hrsvd.symm)
    (einst.trans hinst.symm) (edata.trans hdata.symm)


/-- OPA and OPB are read under OP 1 and 2 alone (R65). -/
theorem decode_operands {w : Opw} (a b a' b' : Word) (hcalc : (opField w).toNat ≠ 1)
    (hinit : (opField w).toNat ≠ 2) : decode ⟨w, a, b⟩ = decode ⟨w, a', b'⟩ := by
  unfold decode decodeFields
  dsimp only
  generalize (opField w).toNat = op at hcalc hinit
  split
  · split
    case h_1 => exact absurd rfl hcalc
    case h_2 => exact absurd rfl hinit
    all_goals rfl
  · rfl

/-- OPB is not read under OP 2 (R65). -/
theorem decode_init_operand {w : Opw} (a b b' : Word) (hinit : (opField w).toNat = 2) :
    decode ⟨w, a, b⟩ = decode ⟨w, a, b'⟩ := by
  unfold decode
  rw [hinit]
  rfl

/-! ## The rows of the opcode map (R67) -/

/-- Every row fixes all four bits of OP, so a word it selects has the row's OP. -/
theorem opField_of_selects {row : OpcodeRow} {w : Opw} (hrow : row ∈ opcodeTable)
    (h : row.selects w = true) : opField w = opField row.pattern := by
  have hmask : ∀ row ∈ opcodeTable, opField row.mask = BitVec.allOnes 4 := by decide
  have hand : opField (w &&& row.mask) = opField w &&& opField row.mask := BitVec.extractLsb'_and
  rw [OpcodeRow.selects, beq_iff_eq] at h
  rw [← h, hand, hmask row hrow, BitVec.and_allOnes]

theorem row_eq_of_opField_eq : ∀ row ∈ opcodeTable, ∀ row' ∈ opcodeTable,
    opField row.pattern = opField row'.pattern → row = row' := by decide

theorem filter_eq_row : ∀ row ∈ opcodeTable, opcodeTable.filter (· = row) = [row] := by decide

/-- The rows differ in OP, so a word one of them selects is selected by no other. -/
theorem filter_selects {row : OpcodeRow} {w : Opw} (hrow : row ∈ opcodeTable)
    (h : row.selects w = true) : opcodeTable.filter (fun row => row.selects w) = [row] := by
  rw [← filter_eq_row row hrow]
  refine List.filter_congr fun row' hrow' => ?_
  rw [Bool.eq_iff_iff, decide_eq_true_iff]
  constructor
  · intro h'
    exact row_eq_of_opField_eq row' hrow' row hrow
      ((opField_of_selects hrow' h').symm.trans (opField_of_selects hrow h))
  · rintro rfl
    exact h

/-- An instruction's word selects its own row, whatever the operation. -/
theorem tableRow (i : Instr) : Laws.TableRow.Statement i := by
  cases i with
  | calcDiv clk baud => exact Laws.TableRow.calcDiv clk baud
  | init n baud => exact Laws.TableRow.init n baud
  | start n => exact Laws.TableRow.start n
  | put n b => exact Laws.TableRow.put n b
  | get n => exact Laws.TableRow.get n
  | bput n b => exact Laws.TableRow.bput n b
  | bget n => exact Laws.TableRow.bget n
  | stat n sel => exact Laws.TableRow.stat n sel
  | txi n => exact Laws.TableRow.txi n
  | rxi n => exact Laws.TableRow.rxi n

theorem filter_selects_of_decode {r : Request} {i : Instr} (h : decode r = .ok i) :
    opcodeTable.filter (fun row => row.selects r.opw) = [i.row] := by
  obtain ⟨hrow, -, hsel⟩ := tableRow i
  rw [encode_opw_of_decode h] at hsel
  exact filter_selects hrow hsel

end Sys2Proof

namespace Sys2Proof.Machine

/-! ## The illegal words (R70) -/

theorem illegalWord_of_decode_error {r : Request} {e : DecodeError} (h : decode r = .error e) :
    IllegalWord r.opw := by
  unfold decode decodeFields at h
  split at h
  case isFalse hrsvd => exact .inr (.inl hrsvd)
  case isTrue =>
    split at h
    case h_1 hop =>
      split at h
      case isTrue =>
        obtain ⟨hdata, -⟩ := noData_error.1 h
        simp [IllegalWord, hop, hdata]
      case isFalse hinst => simp [IllegalWord, hop, hinst]
    case h_4 => cases h
    case h_6 => cases h
    case h_8 hop =>
      split at h
      case isTrue => cases h
      case isFalse hsel => simp [IllegalWord, hop, Nat.lt_of_not_le hsel]
    case h_11 =>
      refine .inl ?_
      simp only [imp_false] at *
      omega
    all_goals
      rename_i hop
      obtain ⟨hdata, -⟩ := noData_error.1 h
      simp [IllegalWord, hop, hdata]

/-- Of the words that decode, the entry points alone are illegal, by clause (f). -/
theorem illegalWord_iff_of_decode {r : Request} {i : Instr} (h : decode r = .ok i) :
    IllegalWord r.opw ↔ i.isEntryPoint = true := by
  obtain ⟨hop, hrsvd, hinst, hdata, hwf⟩ := decodeFields_ok h
  unfold IllegalWord
  rw [hop, hrsvd, hinst, hdata]
  cases i with
  | stat n sel =>
    have hsel : sel.toNat ≤ 6 := by simpa [Instr.wellFormed] using hwf
    simp [Instr.opBits, Instr.dataByte, Instr.isEntryPoint, hsel]
  | _ => simp [Instr.opBits, Instr.instBit, Instr.inst?, Instr.dataByte, Instr.isEntryPoint]

theorem decodeMainline_of_decode {r : Request} {i : Instr} (h : decode r = .ok i) :
    decodeMainline r = if i.isEntryPoint then .error .entryPoint else .ok i := by
  simp only [decodeMainline, h]

/-- R70's clauses are what makes the mainline's decoder reject a word. -/
theorem illegalWord_iff {r : Request} : IllegalWord r.opw ↔ ∃ e, decodeMainline r = .error e := by
  cases hd : decode r with
  | error e =>
    exact iff_of_true (illegalWord_of_decode_error hd) ⟨e, by simp only [decodeMainline, hd]⟩
  | ok i =>
    rw [illegalWord_iff_of_decode hd, decodeMainline_of_decode hd]
    cases i.isEntryPoint <;> simp

/-! ## The settled statements about words -/

/-- Settles O1: the decoder reads the four fields the encoder wrote. -/
theorem decodeOfEncode : Obligations.DecodeOfEncode := by
  unfold Obligations.DecodeOfEncode
  intro i hwf
  exact ⟨decode_encode hwf, decodeMainline_of_decode (decode_encode hwf)⟩

/-- Settles O2: the encoder writes the four fields the decoder read. -/
theorem encodeOfDecode : Obligations.EncodeOfDecode := by
  unfold Obligations.EncodeOfDecode
  intro r i h
  exact ⟨wellFormed_of_decode h, encode_opw_of_decode h⟩

/-- Settles O3: a word that decodes selects its instruction's row, and a word that does not meets one of
the clauses. -/
theorem everyWordIsOneRowOrIllegal : Obligations.EveryWordIsOneRowOrIllegal := by
  unfold Obligations.EveryWordIsOneRowOrIllegal
  intro r
  cases hd : decode r with
  | error e => exact .inr ⟨⟨e, rfl⟩, illegalWord_of_decode_error hd⟩
  | ok i => exact .inl ⟨i, rfl, filter_selects_of_decode hd⟩

/-- Settles O5: the written words are encodings of CALC and INIT, which give their operands back, and no
other OP reads an operand word. -/
theorem operandsUsedAsTheyStand : Obligations.OperandsUsedAsTheyStand := by
  unfold Obligations.OperandsUsedAsTheyStand
  exact ⟨fun a b => decode_encode (i := .calcDiv a b) rfl,
    fun a b => ⟨(decode_init_operand a b 0#32 rfl).trans (decode_encode (i := .init .i0 a) rfl),
      (decode_init_operand a b 0#32 rfl).trans (decode_encode (i := .init .i1 a) rfl)⟩,
    fun _ a b a' b' => decode_operands a b a' b'⟩

/-- Settles O6: each word's fields are computed from its bits. -/
theorem writtenWordsDecode : Obligations.WrittenWordsDecode := by
  unfold Obligations.WrittenWordsDecode
  exact ⟨rfl, rfl, rfl, rfl, rfl, rfl, rfl, rfl, rfl, rfl, rfl, rfl, rfl, rfl, rfl, rfl⟩

/-! ## Requests that raise ILLEGAL_OP (R69, R70) -/

section
variable {s t : State} {n : Inst}

theorem runMain_of_rejected {r : Request} {rest : List Request} {e : DecodeError} (hml : s.ml = .idle)
    (hp : s.program = r :: rest) (hd : decodeMainline r = .error e) :
    runMain s = .next (rejectRequest r (takeRequest rest s)) := by
  simp only [runMain, hml, hp, hd]

theorem rateCalc_error_ne_illegalOp {clk baud : Word} {c : FaultCode}
    (h : rateCalc clk baud = .error c) : c ≠ .illegalOp := by
  rintro rfl
  unfold rateCalc at h
  dsimp only at h
  split at h
  · cases h
  · split at h
    · cases h
    · split at h <;> cases h

theorem channelCheck_ne_illegalOp {mode : ChanMode} {c : FaultCode}
    (h : channelCheck s n mode = some c) : c ≠ .illegalOp := by
  rintro rfl
  unfold channelCheck at h
  split at h
  · cases h
  · split at h <;> cases h

/-- Every selector a well-formed STAT can have names an image (R42). -/
theorem image_ne_none {sel : Byte} (h : sel.toNat ≤ 6) : image s n sel ≠ none := by
  unfold image
  dsimp only
  generalize sel.toNat = k at h
  interval_cases k <;> nofun

/-- An instruction leaves the fault record alone or raises a fault and does nothing else, and a well-formed
one never raises ILLEGAL_OP. -/
theorem exec_next_fault {i : Instr} (h : exec i s = .next t) :
    t.fault = s.fault ∨
    ∃ c, t = raiseFault (encode i).opw c s ∧ (i.wellFormed = true → c ≠ .illegalOp) := by
  cases i with
  | calcDiv clk baud =>
    obtain ⟨c, hc, rfl⟩ | ⟨d, f, -, rfl⟩ := execCalc_next h
    · exact .inr ⟨c, rfl, fun _ => rateCalc_error_ne_illegalOp hc⟩
    · exact .inl rfl
  | init n baud =>
    obtain ⟨-, rfl⟩ | ⟨c, -, hc, rfl⟩ | ⟨d, f, -, -, rfl⟩ := execInit_next h
    · exact .inr ⟨_, rfl, fun _ => nofun⟩
    · exact .inr ⟨c, rfl, fun _ => rateCalc_error_ne_illegalOp hc⟩
    · exact .inl (by simp)
  | start n =>
    obtain ⟨-, rfl⟩ | ⟨-, -, rfl⟩ := execStart_next h
    · exact .inr ⟨_, rfl, fun _ => nofun⟩
    · exact .inl (by simp)
  | put n b =>
    obtain ⟨c, hc, rfl⟩ | ⟨-, -, rfl⟩ | ⟨-, -, rfl⟩ := execPut_next h
    · exact .inr ⟨c, rfl, fun _ => channelCheck_ne_illegalOp hc⟩
    · exact .inl rfl
    · exact .inl rfl
  | get n =>
    obtain ⟨c, hc, rfl⟩ | ⟨-, -, rfl⟩ | ⟨-, -, rfl⟩ := execGet_next h
    · exact .inr ⟨c, rfl, fun _ => channelCheck_ne_illegalOp hc⟩
    · exact .inl rfl
    · exact .inl rfl
  | bput n b =>
    obtain ⟨c, hc, rfl⟩ | ⟨-, rfl⟩ := execBput_next h
    · exact .inr ⟨c, rfl, fun _ => channelCheck_ne_illegalOp hc⟩
    · exact .inl rfl
  | bget n =>
    obtain ⟨c, hc, rfl⟩ | ⟨-, rfl⟩ := execBget_next h
    · exact .inr ⟨c, rfl, fun _ => channelCheck_ne_illegalOp hc⟩
    · exact .inl rfl
  | stat n sel =>
    obtain ⟨v, -, rfl⟩ | ⟨himage, rfl⟩ := execStat_next h
    · exact .inl rfl
    · exact .inr ⟨_, rfl, fun hwf => absurd himage (image_ne_none (of_decide_eq_true hwf))⟩
  | txi n =>
    obtain ⟨-, rfl⟩ | ⟨b, -, -, -, rfl⟩ := execTxi_next h
    · exact .inl (by simp)
    · exact .inl (by simp)
  | rxi n =>
    obtain ⟨v, -, ⟨-, rfl⟩ | ⟨-, -, rfl⟩⟩ := execRxi_next h
    · exact .inl (by simp)
    · exact .inl (by simp)

theorem faultNumber_eq_one_iff {c : FaultCode} : faultNumber c = 0x01#8 ↔ c = .illegalOp := by
  cases c <;> decide

/-- A well-formed instruction that finds no fault recorded does not leave ILLEGAL_OP recorded. -/
theorem exec_fault_code_ne {i : Instr} (h : exec i s = .next t) (hwf : i.wellFormed = true)
    (hs : s.fault.valid = false) (ht : t.fault.valid = true) : t.fault.code ≠ 0x01#8 := by
  obtain hkeep | ⟨c, rfl, hc⟩ := exec_next_fault h
  · rw [hkeep, hs] at ht
    cases ht
  · rw [raiseFault_fault _ _ _ hs]
    exact faultNumber_eq_one_iff.not.2 (hc hwf)

end

/-- Settles O4: R70's clauses decide whether the mainline's decoder rejects the request, what it accepts is
well-formed, and of a well-formed instruction's faults none is ILLEGAL_OP. -/
theorem illegalRequestsRaise : Obligations.IllegalRequestsRaise := by
  unfold Obligations.IllegalRequestsRaise
  refine ⟨fun s r rest hc hm hml hp => ?_, fun _ a b a' b' => decode_operands a b a' b',
    fun _ a b b' => decode_init_operand a b b'⟩
  have hvalid : s.fault.valid = false := enabled_fault (choose_enabled hm)
  have hstep : step s = runMain (advance s) := step_of_choose hc hm
  constructor
  · intro hillegal
    obtain ⟨e, he⟩ := illegalWord_iff.1 hillegal
    rw [hstep, runMain_of_rejected (s := advance s) hml hp he, rejectRequest, raiseFault_eq]
    simp [takeRequest, hvalid, faultNumber]
  · intro hlegal
    cases hd : decodeMainline r with
    | error e => exact absurd (illegalWord_iff.2 ⟨e, hd⟩) hlegal
    | ok i =>
      obtain ⟨hdecode, -⟩ := decodeMainline_ok.1 hd
      rw [hstep, runMain_of_offer (s := advance s) hml hp hd]
      exact ⟨⟨i, rfl, rfl⟩, fun t ht => exec_fault_code_ne ht (wellFormed_of_decode hdecode) hvalid⟩

/-! ## putString (R73) -/

theorem putStringNext_of_accepted {n : Inst} {s : List Byte} {rs : List Word}
    (h : ∀ r ∈ rs, accepted r = true) :
    putStringNext n s rs = (s[rs.length]?).map (.put n ·) := by
  induction s generalizing rs with
  | nil => rfl
  | cons b bs ih =>
    cases rs with
    | nil => rfl
    | cons r rs =>
      obtain ⟨hr, hrs⟩ := List.forall_mem_cons.1 h
      simp [putStringNext, hr, ih hrs]

/-- Once a byte was rejected nothing more is offered. -/
theorem putStringNext_of_rejected {n : Inst} {s : List Byte} {rs : List Word} {r : Word}
    (hmem : r ∈ rs) (hr : accepted r = false) : putStringNext n s rs = none := by
  induction s generalizing rs with
  | nil => rfl
  | cons b bs ih =>
    cases rs with
    | nil => cases hmem
    | cons x xs =>
      obtain rfl | hmem := List.mem_cons.1 hmem
      · simp [putStringNext, hr]
      · simp [putStringNext, ih hmem]

theorem putStringResult_of_accepted {rs : List Word} (h : ∀ r ∈ rs, accepted r = true) :
    putStringResult rs = rs.length := by
  rw [putStringResult, List.filter_eq_self.2 h]

/-- A rejected byte is not counted. -/
theorem putStringResult_append_rejected {rs : List Word} {r : Word} (hr : accepted r = false) :
    putStringResult (rs ++ [r]) = putStringResult rs := by
  simp [putStringResult, hr]

/-- Settles O7: the responses are read off one by one with the bytes they answer. -/
theorem putStringStopsAtRejection : Obligations.PutStringStopsAtRejection := by
  unfold Obligations.PutStringStopsAtRejection
  intro n s rs
  constructor
  · intro h
    exact ⟨putStringNext_of_accepted h, putStringResult_of_accepted h⟩
  · intro r h hr
    exact ⟨putStringNext_of_rejected (by simp) hr,
      (putStringResult_append_rejected hr).trans (putStringResult_of_accepted h)⟩

end Sys2Proof.Machine

/-! PROOF. 40_divisor.md: when rateCalc faults and what it computes (R75 to R80), the rate it generates
(R82), the write of the pair into RATE (R83, R84) and CALC (R85); and what each instruction leaves
unchanged. -/

namespace Sys2Proof.Machine

/-! ## The two quotients (R76, R77) -/

section
variable (clk baud : Nat)

/-- The 32 in the numerator and the 16 in the denominator cancel to a 2 (R77). -/
theorem fineQuotient_eq : clk * 32 / (baud * 16) = 2 * clk / baud := by
  rw [show clk * 32 = 2 * clk * 16 by omega, Nat.mul_div_mul_right _ _ (by decide)]

/-- The divisor is the whole part of `floor(2 * clk / baud)` in units of 32. -/
theorem divisorOf_eq : divisorOf clk baud = 2 * clk / baud / 32 := by
  rw [← fineQuotient_eq, Nat.div_div_eq_div_mul, Nat.mul_div_mul_right _ _ (by decide), divisorOf]

/-- The fine-adjust is what the divisor leaves of `floor(2 * clk / baud)`. -/
theorem fineOf_eq : fineOf clk baud = 2 * clk / baud % 32 := by
  rw [fineOf, fineQuotient_eq, divisorOf_eq, Nat.mod_eq_sub_div_mul]

/-- The fine-adjust fits its field (R77). -/
theorem fineOf_lt : fineOf clk baud < 32 := by
  rw [fineOf_eq]
  exact Nat.mod_lt _ (by decide)

/-- Divisor and fine-adjust together are `floor(2 * clk / baud)` (R77, R82). -/
theorem divisorOf_add_fineOf : 32 * divisorOf clk baud + fineOf clk baud = 2 * clk / baud := by
  rw [divisorOf_eq, fineOf_eq, Nat.div_add_mod]

variable {clk baud}

/-- R79's two readings of the overflow. -/
theorem divisorOf_overflow_iff (hb : 0 < baud) : 8191 < divisorOf clk baud ↔ 131072 * baud ≤ clk := by
  rw [divisorOf, Nat.lt_iff_add_one_le, Nat.le_div_iff_mul_le (by omega)]
  omega

/-- R80's two readings of the underflow. -/
theorem divisorOf_eq_zero_iff (hb : 0 < baud) : divisorOf clk baud = 0 ↔ clk < 16 * baud := by
  rw [divisorOf, Nat.div_eq_zero_iff_lt (by omega), Nat.mul_comm]

end

/-! ## rateCalc, an equation per branch (R75) -/

section
variable {clk baud : Word}

theorem toNat_pos_of_ne_zero (h : baud ≠ 0#32) : 0 < baud.toNat := by
  bv_omega

theorem rateCalc_zero (h : clk = 0#32 ∨ baud = 0#32) : rateCalc clk baud = .error .cfgZero :=
  if_pos h

/-- With neither argument 0 the divisor alone decides. -/
theorem rateCalc_nonzero (hc : clk ≠ 0#32) (hb : baud ≠ 0#32) : rateCalc clk baud =
    if divisorOf clk.toNat baud.toNat > 8191 then .error .cfgOverflow
    else if divisorOf clk.toNat baud.toNat = 0 then .error .cfgUnderflow
    else .ok (BitVec.ofNat 13 (divisorOf clk.toNat baud.toNat),
      BitVec.ofNat 5 (fineOf clk.toNat baud.toNat)) :=
  if_neg (not_or.2 ⟨hc, hb⟩)

theorem rateCalc_overflow (hc : clk ≠ 0#32) (hb : baud ≠ 0#32)
    (h : 131072 * baud.toNat ≤ clk.toNat) : rateCalc clk baud = .error .cfgOverflow := by
  rw [rateCalc_nonzero hc hb, if_pos ((divisorOf_overflow_iff (toNat_pos_of_ne_zero hb)).2 h)]

theorem rateCalc_underflow (hc : clk ≠ 0#32) (hb : baud ≠ 0#32)
    (h : clk.toNat < 16 * baud.toNat) : rateCalc clk baud = .error .cfgUnderflow := by
  have hd := (divisorOf_eq_zero_iff (toNat_pos_of_ne_zero hb)).2 h
  rw [rateCalc_nonzero hc hb, hd]
  rfl

theorem rateCalc_achievable (hb : baud ≠ 0#32) (hlow : 16 * baud.toNat ≤ clk.toNat)
    (hhigh : clk.toNat < 131072 * baud.toNat) : rateCalc clk baud =
      .ok (BitVec.ofNat 13 (divisorOf clk.toNat baud.toNat),
        BitVec.ofNat 5 (fineOf clk.toNat baud.toNat)) := by
  have hpos := toNat_pos_of_ne_zero hb
  have hc : clk ≠ 0#32 := by bv_omega
  rw [rateCalc_nonzero hc hb, if_neg ((divisorOf_overflow_iff hpos).not.2 hhigh.not_ge),
    if_neg ((divisorOf_eq_zero_iff hpos).not.2 hlow.not_gt)]

/-- Everything a pair returned by rateCalc says: the arguments are achievable and no field is truncated
(R76, R77). -/
theorem rateCalc_ok {d : BitVec 13} {f : BitVec 5} (h : rateCalc clk baud = .ok (d, f)) :
    0 < baud.toNat ∧ 0 < d.toNat ∧ d.toNat = divisorOf clk.toNat baud.toNat ∧
      f.toNat = fineOf clk.toNat baud.toNat := by
  by_cases hz : clk = 0#32 ∨ baud = 0#32
  · rw [rateCalc_zero hz] at h
    cases h
  obtain ⟨hc, hb⟩ := not_or.1 hz
  rw [rateCalc_nonzero hc hb] at h
  split_ifs at h with hover hunder
  cases h
  have hd : (BitVec.ofNat 13 (divisorOf clk.toNat baud.toNat)).toNat = divisorOf clk.toNat baud.toNat := by
    rw [BitVec.toNat_ofNat, Nat.mod_eq_of_lt (by omega)]
  have hf : (BitVec.ofNat 5 (fineOf clk.toNat baud.toNat)).toNat = fineOf clk.toNat baud.toNat := by
    rw [BitVec.toNat_ofNat, Nat.mod_eq_of_lt (fineOf_lt _ _)]
  exact ⟨toNat_pos_of_ne_zero hb, by omega, hd, hf⟩

end

/-- Settles O8: the divisor's overflow and underflow are inequalities between clk and multiples of baud,
and each branch of rateCalc has its equation. -/
theorem rateCalcFaultConditions : Obligations.RateCalcFaultConditions := by
  unfold Obligations.RateCalcFaultConditions
  refine ⟨fun _ _ => rateCalc_zero, fun clk baud hc hb => ?_, ⟨30#5, by decide⟩, rfl, rfl, rfl⟩
  have hpos := toNat_pos_of_ne_zero hb
  exact ⟨divisorOf_overflow_iff hpos, rateCalc_overflow hc hb, divisorOf_eq_zero_iff hpos,
    rateCalc_underflow hc hb⟩

/-- Settles O9: the pair is `floor(2 * clk / baud)` divided by 32 with remainder, and what rateCalc lets
through fits its fields. -/
theorem rateCalcDivisorAndFineAdjust : Obligations.RateCalcDivisorAndFineAdjust := by
  unfold Obligations.RateCalcDivisorAndFineAdjust
  refine ⟨fun clk baud d f h => ?_, fun clk baud hb hlow => ?_, fun clk baud _ => ?_⟩
  · obtain ⟨-, -, hd, hf⟩ := rateCalc_ok h
    have hfine : f.toNat = clk.toNat * 32 / (baud.toNat * 16) - d.toNat * 32 := by rw [hf, hd, fineOf]
    refine ⟨hd, hfine, ?_⟩
    rw [hfine, fineQuotient_eq, Nat.mul_comm d.toNat]
  · have hpos := toNat_pos_of_ne_zero hb
    have hc : clk ≠ 0#32 := by bv_omega
    refine ⟨fun hfits => ?_, fun hover => rateCalc_overflow hc hb ((divisorOf_overflow_iff hpos).1 hover)⟩
    have hhigh := (divisorOf_overflow_iff hpos).not.1 hfits.not_gt
    exact ⟨_, rateCalc_achievable hb hlow (Nat.lt_of_not_ge hhigh)⟩
  · refine ⟨Nat.le_of_lt_succ (fineOf_lt clk baud), divisorOf_add_fineOf clk baud, ?_⟩
    rw [fineQuotient_eq, divisorOf_eq]
    exact Nat.div_mul_le_self _ _

/-- Settles O10: `32 * d + f` is the floor of `2 * clk / baud`. -/
theorem generatedRateBound : Obligations.GeneratedRateBound := by
  unfold Obligations.GeneratedRateBound
  intro clk baud d f h
  obtain ⟨hpos, hd0, hd, hf⟩ := rateCalc_ok h
  have hsum : 32 * d.toNat + f.toNat = 2 * clk.toNat / baud.toNat := by
    rw [hd, hf, divisorOf_add_fineOf]
  refine ⟨by omega, ?_, ?_⟩
  · rw [hsum]
    exact Nat.mul_div_le _ _
  · rw [hsum]
    exact Nat.lt_mul_div_succ _ hpos

/-! ## The pair in RATE and in a response (R68, R83, R84) -/

/-- The mask of rateWrite is 1 on OTH1 and on OTH0 (R83). -/
theorem rateMask_keeps : (∀ i < 11, (0xFFE0E000#32).getLsbD (21 + i) = true) ∧
    ∀ i < 3, (0xFFE0E000#32).getLsbD (13 + i) = true := by decide

/-- The pair lies outside OTH1 and OTH0 (R83). -/
theorem ratePair_clear (d : BitVec 13) (f : BitVec 5) :
    (∀ i, (ratePair d f).getLsbD (21 + i) = false) ∧ ∀ i < 3, (ratePair d f).getLsbD (13 + i) = false := by
  have hd : ∀ i, 13 ≤ i → d.getLsbD i = false := fun i hi => BitVec.getLsbD_of_ge _ _ hi
  have hf : ∀ i, 5 ≤ i → f.getLsbD i = false := fun i hi => BitVec.getLsbD_of_ge _ _ hi
  constructor
  · intro i
    simp [ratePair, hd (21 + i) (by omega), hf (21 + i - 16) (by omega)]
  · intro i hi
    simp [ratePair, show 13 + i < 16 by omega]

/-- The read-modify-write keeps the 14 unrelated bits (R84). -/
@[simp] theorem otherOf_rateMerge (v : Word) (d : BitVec 13) (f : BitVec 5) :
    otherOf (rateMerge v d f) = otherOf v := by
  unfold otherOf
  congr 1
  · apply BitVec.eq_of_getLsbD_eq
    intro i hi
    simp [rateMerge, rateMask_keeps.1 i hi, (ratePair_clear d f).1]
  · apply BitVec.eq_of_getLsbD_eq
    intro i hi
    simp [rateMerge, rateMask_keeps.2 i hi, (ratePair_clear d f).2 i hi]

/-- The response of CALC and INIT is the pair merged into a register of zeros. -/
theorem ratePair_eq_rateMerge (d : BitVec 13) (f : BitVec 5) : ratePair d f = rateMerge 0#32 d f := by
  simp [rateMerge]

/-- Settles O11: the three parts of RATE after the read-modify-write. -/
theorem rateWriteKeepsUnrelatedBits : Obligations.RateWriteKeepsUnrelatedBits := by
  unfold Obligations.RateWriteKeepsUnrelatedBits
  exact fun u d f => ⟨sbrOf_rateMerge _ d f, brfaOf_rateMerge _ d f, otherOf_rateMerge _ d f, rfl⟩

/-- Settles O51: RATE is written by INIT alone, and INIT writes it through rateWrite. -/
theorem unrelatedRateBitsNeverChange : Obligations.UnrelatedRateBitsNeverChange := by
  unfold Obligations.UnrelatedRateBitsNeverChange
  intro s t hs
  obtain ⟨-, m, hm, -, -⟩ := step_next hs
  refine ⟨(step_effect .i0 hm hs).2, fun n => ?_⟩
  obtain ⟨-, hrate, -⟩ | ⟨-, -, -, -, -, baud, d, f, -, -, -, h⟩ |
    ⟨-, -, -, -, -, -, -, h⟩ := uartEffect_setup (step_effect n hm hs).1
  · rw [hrate]
  · rw [h]
    exact otherOf_rateMerge _ d f
  · rw [h, enable_eq]

/-! ## CALC (R85) -/

section
variable {clk baud : Word} {s : State}

theorem exec_calcDiv_of_ok {d : BitVec 13} {f : BitVec 5} (h : rateCalc clk baud = .ok (d, f)) :
    exec (.calcDiv clk baud) s = .next (respond (ratePair d f) s) := by
  simp only [exec, execCalc, h]

theorem exec_calcDiv_of_error {c : FaultCode} (h : rateCalc clk baud = .error c)
    (hs : s.fault.valid = false) : exec (.calcDiv clk baud) s =
      .next { s with fault := ⟨true, faultNumber c, 0#1, 0x1000#16⟩ } := by
  have hword : instField 0x1000#16 = 0#1 := by decide
  simp [exec, execCalc, h, raiseFor, raiseFault_eq, hs, encode, hword]

end

/-- Settles O12: CALC responds with rateCalc's pair in RATE's positions. -/
theorem calcRespondsWithPair : Obligations.CalcRespondsWithPair := by
  unfold Obligations.CalcRespondsWithPair
  intro s clk baud hb hlow hhigh
  have hcalc := rateCalc_achievable hb hlow hhigh
  obtain ⟨-, -, hd, hf⟩ := rateCalc_ok hcalc
  refine ⟨ratePair _ _, ?_, ?_, ?_, exec_calcDiv_of_ok hcalc⟩
  · rw [ratePair_eq_rateMerge, sbrOf_rateMerge, hd, divisorOf]
  · rw [ratePair_eq_rateMerge, brfaOf_rateMerge, hf, fineOf, fineQuotient_eq, Nat.mul_comm _ 32, divisorOf]
  · rw [ratePair_eq_rateMerge, otherOf_rateMerge]
    rfl

/-- Settles O13: each of rateCalc's faults is CALC's. -/
theorem calcFaultsInOrder : Obligations.CalcFaultsInOrder := by
  unfold Obligations.CalcFaultsInOrder
  intro s clk baud hs
  exact ⟨fun hzero => exec_calcDiv_of_error (rateCalc_zero hzero) hs,
    fun hc hb hover => exec_calcDiv_of_error (rateCalc_overflow hc hb hover) hs,
    fun hc hb hunder => exec_calcDiv_of_error (rateCalc_underflow hc hb hunder) hs⟩

/-! ## What an instruction leaves unchanged -/

section
variable {s t : State} {n : Inst} {a : Option Inst}

/-- What an instruction that may write UART `a` leaves unchanged: the configuration, the program and
the schedule; the fault record or else all the rest; the responses given before; the UARTs other
than `a`. -/
structure KeepsSurroundings (a : Option Inst) (s t : State) : Prop where
  cfg : t.cfg = s.cfg
  program : t.program = s.program
  agenda : t.agenda = s.agenda
  tick : t.tick = s.tick
  fault : t.fault = s.fault ∨ t.ml = s.ml ∧ t.resps = s.resps ∧ ∀ k, t.uart k = s.uart k
  resps : t.resps = s.resps ∨ ∃ v, t.resps = s.resps ++ [v]
  uart : ∀ k, a ≠ some k → t.uart k = s.uart k

theorem keepsSurroundings_raiseFault (w : Opw) (c : FaultCode) :
    KeepsSurroundings a s (raiseFault w c s) where
  cfg := by simp
  program := by simp
  agenda := by simp
  tick := by simp
  fault := .inr (by simp)
  resps := .inl (by simp)
  uart := by simp

theorem keepsSurroundings_setMl (m : Mainline) : KeepsSurroundings a s (s.setMl m) where
  cfg := rfl
  program := rfl
  agenda := rfl
  tick := rfl
  fault := .inl rfl
  resps := .inl rfl
  uart := by simp

theorem keepsSurroundings_setUart (u : Uart) : KeepsSurroundings (some n) s (s.setUart n u) where
  cfg := by simp
  program := by simp
  agenda := by simp
  tick := by simp
  fault := .inl (by simp)
  resps := .inl (by simp)
  uart k hk := uart_setUart_of_ne s u fun h => hk (h ▸ rfl)

/-- A response given at the end of an instruction that has raised no fault and given none yet. -/
theorem KeepsSurroundings.respond (h : KeepsSurroundings a s t) (hf : t.fault = s.fault)
    (hr : t.resps = s.resps) (v : Word) : KeepsSurroundings a s (respond v t) where
  cfg := h.cfg
  program := h.program
  agenda := h.agenda
  tick := h.tick
  fault := .inl hf
  resps := .inr ⟨v, by simp [hr]⟩
  uart k hk := by simpa using h.uart k hk

theorem keepsSurroundings_refl : KeepsSurroundings a s s where
  cfg := rfl
  program := rfl
  agenda := rfl
  tick := rfl
  fault := .inl rfl
  resps := .inl rfl
  uart _ _ := rfl

theorem keepsSurroundings_respond (v : Word) : KeepsSurroundings a s (respond v s) :=
  keepsSurroundings_refl.respond rfl rfl v

theorem keepsSurroundings_respond_setUart (v : Word) (u : Uart) :
    KeepsSurroundings (some n) s (respond v (s.setUart n u)) :=
  (keepsSurroundings_setUart u).respond (by simp) (by simp) v

/-- The UART whose registers the instruction may write: M1 of PUT, GET, BPUT and BGET, CALC and STAT
write none. -/
def writtenInst? : Instr → Option Inst
  | .init n _ => some n
  | .start n => some n
  | .txi n => some n
  | .rxi n => some n
  | .calcDiv _ _ => none
  | .put _ _ => none
  | .get _ => none
  | .bput _ _ => none
  | .bget _ => none
  | .stat _ _ => none

/-- An instruction writes no UART but the one it addresses. -/
theorem inst?_of_writtenInst? {i : Instr} (h : writtenInst? i = some n) : i.inst? = some n := by
  cases i with
  | init | start | txi | rxi => exact h
  | _ => cases h

/-- Every instruction keeps its surroundings. -/
theorem exec_keepsSurroundings {i : Instr} (h : exec i s = .next t) :
    KeepsSurroundings (writtenInst? i) s t := by
  cases i with
  | calcDiv clk baud =>
    obtain ⟨c, -, rfl⟩ | ⟨d, f, -, rfl⟩ := execCalc_next h
    · exact keepsSurroundings_raiseFault _ c
    · exact keepsSurroundings_respond _
  | init n baud =>
    obtain ⟨-, rfl⟩ | ⟨c, -, -, rfl⟩ | ⟨d, f, -, -, rfl⟩ := execInit_next h
    · exact keepsSurroundings_raiseFault _ _
    · exact keepsSurroundings_raiseFault _ c
    · exact keepsSurroundings_respond_setUart _ _
  | start n =>
    obtain ⟨-, rfl⟩ | ⟨-, -, rfl⟩ := execStart_next h
    · exact keepsSurroundings_raiseFault _ _
    · exact keepsSurroundings_respond_setUart _ _
  | put n b =>
    obtain ⟨c, -, rfl⟩ | ⟨-, -, rfl⟩ | ⟨-, -, rfl⟩ := execPut_next h
    · exact keepsSurroundings_raiseFault _ c
    · exact keepsSurroundings_respond _
    · exact keepsSurroundings_setMl _
  | get n =>
    obtain ⟨c, -, rfl⟩ | ⟨-, -, rfl⟩ | ⟨-, -, rfl⟩ := execGet_next h
    · exact keepsSurroundings_raiseFault _ c
    · exact keepsSurroundings_respond _
    · exact keepsSurroundings_setMl _
  | bput n b =>
    obtain ⟨c, -, rfl⟩ | ⟨-, rfl⟩ := execBput_next h
    · exact keepsSurroundings_raiseFault _ c
    · exact keepsSurroundings_setMl _
  | bget n =>
    obtain ⟨c, -, rfl⟩ | ⟨-, rfl⟩ := execBget_next h
    · exact keepsSurroundings_raiseFault _ c
    · exact keepsSurroundings_setMl _
  | stat n sel =>
    obtain ⟨v, -, rfl⟩ | ⟨-, rfl⟩ := execStat_next h
    · exact keepsSurroundings_respond _
    · exact keepsSurroundings_raiseFault _ _
  | txi n =>
    obtain ⟨-, rfl⟩ | ⟨b, -, -, -, rfl⟩ := execTxi_next h
    · exact keepsSurroundings_setUart _
    · exact keepsSurroundings_setUart _
  | rxi n =>
    obtain ⟨v, -, ⟨-, rfl⟩ | ⟨-, -, rfl⟩⟩ := execRxi_next h
    · exact keepsSurroundings_setUart _
    · exact keepsSurroundings_setUart _


/-! ### The registers an instruction leaves of the UART it writes -/

theorem execInit_frame {baud : Word} (h : execInit n baud s = .next t) :
    otherOf (t.uart n).rate = otherOf (s.uart n).rate ∧ t.uart n = { s.uart n with
      prdy := (t.uart n).prdy, rate := (t.uart n).rate, baud := (t.uart n).baud,
      twr := (t.uart n).twr, trd := (t.uart n).trd, rwr := (t.uart n).rwr, rrd := (t.uart n).rrd,
      rxdrop := (t.uart n).rxdrop, life := (t.uart n).life } := by
  obtain ⟨-, rfl⟩ | ⟨c, -, -, rfl⟩ | ⟨d, f, -, -, rfl⟩ := execInit_next h
  · rw [raiseFault_uart]
    exact ⟨rfl, rfl⟩
  · rw [raiseFault_uart]
    exact ⟨rfl, rfl⟩
  · rw [respond_uart, uart_setUart_same]
    exact ⟨otherOf_rateMerge _ d f, rfl⟩

theorem execStart_frame (h : execStart n s = .next t) : t.uart n = { s.uart n with
    te := (t.uart n).te, re := (t.uart n).re, rie := (t.uart n).rie, tie := (t.uart n).tie,
    life := (t.uart n).life } := by
  obtain ⟨-, rfl⟩ | ⟨-, -, rfl⟩ := execStart_next h
  · rw [raiseFault_uart]
  · rw [respond_uart, uart_setUart_same, enable_eq]

theorem execTxi_frame (h : execTxi n s = .next t) :
    ((s.uart n).trd = (s.uart n).twr → t.uart n = { s.uart n with tie := (t.uart n).tie }) ∧
    (s.cfg.txIdlePolicy = .keepArmed → (t.uart n).tie = (s.uart n).tie) ∧
    t.uart n = { s.uart n with
      tdr := (t.uart n).tdr, tdre := (t.uart n).tdre, trd := (t.uart n).trd, tie := (t.uart n).tie } := by
  obtain ⟨-, rfl⟩ | ⟨b, hne, -, -, rfl⟩ := execTxi_next h <;>
    rw [uart_setUart_same, disarmIfEmpty_eq]
  · exact ⟨fun _ => rfl, fun hp => by simp [hp], rfl⟩
  · exact ⟨fun he => absurd he.symm hne, fun hp => by simp [hp], rfl⟩

theorem execRxi_frame (h : execRxi n s = .next t) :
    (nextSlot (s.params n).capRx (s.uart n).rwr = (s.uart n).rrd →
      t.uart n = { s.uart n with rdrf := (t.uart n).rdrf, rxdrop := (t.uart n).rxdrop }) ∧
    (nextSlot (s.params n).capRx (s.uart n).rwr ≠ (s.uart n).rrd →
      (t.uart n).rxdrop = (s.uart n).rxdrop) ∧
    (∀ k, k ≠ (s.uart n).rwr → (t.uart n).bufR.read k = (s.uart n).bufR.read k) ∧
    t.uart n = { s.uart n with
      rdrf := (t.uart n).rdrf, bufR := (t.uart n).bufR, rwr := (t.uart n).rwr,
      rxdrop := (t.uart n).rxdrop } := by
  obtain ⟨v, -, ⟨hfull, rfl⟩ | ⟨hroom, -, rfl⟩⟩ := execRxi_next h <;> rw [uart_setUart_same]
  · exact ⟨fun _ => rfl, fun hroom => absurd hfull hroom, fun _ _ => rfl, rfl⟩
  · exact ⟨fun hfull => absurd hfull hroom, fun _ => rfl, fun _ hk => Memory.read_write_other _ v hk, rfl⟩

end

/-- Settles O57: every instruction keeps its surroundings, and only INIT, START, TXI and RXI write a
UART. -/
theorem instructionFrame : Obligations.InstructionFrame := by
  unfold Obligations.InstructionFrame
  intro i s t h
  obtain ⟨hcfg, hprogram, hagenda, htick, hfault, hresps, huart⟩ := exec_keepsSurroundings h
  refine ⟨hcfg, hprogram, hagenda, htick, hfault, hresps,
    fun k hk => huart k fun hw => hk (inst?_of_writtenInst? hw), ?_⟩
  cases i with
  | calcDiv clk baud => trivial
  | init n baud => exact execInit_frame h
  | start n => exact execStart_frame h
  | put n b => exact huart n nofun
  | get n => exact huart n nofun
  | bput n b => exact huart n nofun
  | bget n => exact huart n nofun
  | stat n sel => exact huart n nofun
  | txi n => exact execTxi_frame h
  | rxi n => exact execRxi_frame h

end Sys2Proof.Machine

/-! PROOF. 41_channel_mainline.md: the checks of the channel requests (R86, R90, R124), PUT and GET step
by step (R86 to R91), what a later step of a request leaves unchanged, and that neither UART's operations
touch the other (R93, R106). -/

namespace Sys2Proof.Machine

/-! ## The checks (R108, R124) -/

section
variable {s : State} {n : Inst}

/-- The mode a request of the channel needs; the other operations need none (R86, R90, R114, R115). -/
def neededMode : Instr → Option ChanMode
  | .put _ _ => some .queued
  | .get _ => some .queued
  | .bput _ _ => some .polled
  | .bget _ => some .polled
  | .calcDiv _ _ => none
  | .init _ _ => none
  | .start _ => none
  | .stat _ _ => none
  | .txi _ => none
  | .rxi _ => none

/-- A request of the channel raises the fault its check gives. -/
theorem exec_of_channelCheck {i : Instr} {mode : ChanMode} {c : FaultCode} (hi : i.inst? = some n)
    (hm : neededMode i = some mode) (h : channelCheck s n mode = some c) :
    exec i s = raiseFor i c s := by
  cases i with
  | put _ b => cases hi; cases hm; simp only [exec, execPut, h]
  | get => cases hi; cases hm; simp only [exec, execGet, h]
  | bput _ b => cases hi; cases hm; simp only [exec, execBput, h]
  | bget => cases hi; cases hm; simp only [exec, execBget, h]
  | _ => cases hm

/-- A fault raised while no record is valid writes the record alone (R122). -/
theorem raiseFor_of_no_fault (i : Instr) (c : FaultCode) (hs : s.fault.valid = false) :
    raiseFor i c s = .next { s with
      fault := ⟨true, faultNumber c, instField (encode i).opw, (encode i).opw⟩ } := by
  simp [raiseFor, raiseFault_eq, hs]

end

/-- Settles O24: each of the four raises what its check gives, and the check is BAD_STATE first. -/
theorem channelRequestsOutOfStateOrMode : Obligations.ChannelRequestsOutOfStateOrMode := by
  unfold Obligations.ChannelRequestsOutOfStateOrMode
  intro s n b hs i w mode hmem
  have hreq : i.inst? = some n ∧ neededMode i = some mode ∧ (encode i).opw = w := by
    simp only [List.mem_cons, Prod.mk.injEq, List.not_mem_nil, or_false] at hmem
    obtain ⟨rfl, rfl, rfl⟩ | ⟨rfl, rfl, rfl⟩ | ⟨rfl, rfl, rfl⟩ | ⟨rfl, rfl, rfl⟩ := hmem <;>
      exact ⟨rfl, rfl, rfl⟩
  obtain ⟨hi, hm, rfl⟩ := hreq
  constructor
  · intro hstate
    rw [exec_of_channelCheck hi hm (channelCheck_badState.2 hstate), raiseFor_of_no_fault i _ hs]
    rfl
  · intro hstate hmode
    rw [exec_of_channelCheck hi hm (channelCheck_badMode.2 ⟨hstate, hmode⟩), raiseFor_of_no_fault i _ hs]
    rfl

/-! ## M1 of PUT and GET (R86, R87, R90, R91) -/

section
variable {s : State} {n : Inst} (b : Byte) (hm : InMode s n .queued)
include hm

theorem exec_put_of_full (h : nextSlot (s.params n).capTx (s.uart n).twr = (s.uart n).trd) :
    exec (.put n b) s = .next (respond 0#32 s) := by
  simp [exec, execPut, channelCheck_none.2 hm, isFull, h]

theorem exec_put_of_room (h : nextSlot (s.params n).capTx (s.uart n).twr ≠ (s.uart n).trd) :
    exec (.put n b) s = .next (s.setMl (.putM2 n (s.uart n).twr b)) := by
  simp [exec, execPut, channelCheck_none.2 hm, isFull, h]

theorem exec_get_of_empty (h : (s.uart n).rwr = (s.uart n).rrd) :
    exec (.get n) s = .next (respond 0#32 s) := by
  simp [exec, execGet, channelCheck_none.2 hm, isEmpty, h]

theorem exec_get_of_ready (h : (s.uart n).rwr ≠ (s.uart n).rrd) :
    exec (.get n) s = .next (s.setMl (.getM2 n (s.uart n).rrd)) := by
  simp [exec, execGet, channelCheck_none.2 hm, isEmpty, h]

end

/-- Settles O21: M1 over a full queue is a response and nothing else. -/
theorem putRejectionWritesNothing : Obligations.PutRejectionWritesNothing := by
  unfold Obligations.PutRejectionWritesNothing
  intro s n b hm hfull
  exact exec_put_of_full b hm hfull

/-- Settles O23: M1 over an empty queue is a response and nothing else. -/
theorem getNeverBlocks : Obligations.GetNeverBlocks := by
  unfold Obligations.GetNeverBlocks
  intro s n hm hempty
  exact exec_get_of_empty hm hempty.symm

/-! ## The later steps of PUT and GET (R86, R90) -/

section
variable {s : State} {n : Inst} {w r : Nat} {b v : Byte}

@[simp] theorem setMl_setMl (m m' : Mainline) : (s.setMl m).setMl m' = s.setMl m' := rfl

@[simp] theorem respond_setMl (m : Mainline) (x : Word) : respond x (s.setMl m) = respond x s := rfl

theorem resume_putM2 (h : w < (s.params n).capTx) : resume (s.setMl (.putM2 n w b)) =
    .next ((s.setUart n { s.uart n with bufT := (s.uart n).bufT.write w b }).setMl (.putM3 n w b)) := by
  simp [resume, putWrite, writeSlot, h, setMl_setUart]

theorem resume_putM3 : resume (s.setMl (.putM3 n w b)) =
    .next ((s.setUart n { s.uart n with twr := nextSlot (s.params n).capTx w }).setMl
      (.putM4 n w b)) := by
  simp [resume, putPublish, setMl_setUart]

theorem resume_putM4 : resume (s.setMl (.putM4 n w b)) =
    .next (respond 1#32 (s.setUart n { s.uart n with tie := true })) := by
  simp [resume, putArm, setMl_setUart]

theorem resume_getM2 (hr : r < (s.params n).capRx) (hv : (s.uart n).bufR.read r = some v) :
    resume (s.setMl (.getM2 n r)) = .next (s.setMl (.getM3 n r v)) := by
  simp [resume, getRead, readSlot, hr, hv]

theorem resume_getM3 : resume (s.setMl (.getM3 n r v)) = .next (respond (byteResponse v)
    (s.setUart n { s.uart n with rrd := nextSlot (s.params n).capRx r })) := by
  simp [resume, getPublish, setMl_setUart]

/-- A response after a UART is replaced, with the two further fields it writes named. -/
theorem respond_setUart_eq (x : Word) (u : Uart) : respond x (s.setUart n u) =
    { s.setUart n u with ml := .idle, resps := s.resps ++ [x] } := by
  simp [respond]

end

/-- Settles O20: the four steps one after the other, each from the whole state the one before left. -/
theorem putAcceptsInFourSteps : Obligations.PutAcceptsInFourSteps := by
  unfold Obligations.PutAcceptsInFourSteps
  intro s n b hm hw hroom
  refine ⟨_, _, _, exec_put_of_room b hm hroom, resume_putM2 hw, resume_putM3, rfl, ?_, ?_, ?_,
    Memory.read_write_same _ _ b, fun k hk => Memory.read_write_other _ b hk⟩
  · simp
  · simp [nextSlot]
  · rw [resume_putM4, ← respond_setUart_eq]
    simp [nextSlot]

/-- Settles O22: the three steps one after the other, each from the whole state the one before left. -/
theorem getReturnsFrontByte : Obligations.GetReturnsFrontByte := by
  unfold Obligations.GetReturnsFrontByte
  intro s n v hm hr hready hv
  refine ⟨_, _, exec_get_of_ready hm hready.symm, resume_getM2 hr hv, rfl, rfl, ?_⟩
  rw [resume_getM3, respond_setUart_eq, byteResponse, nextSlot]

/-! ## What a later step of a request leaves unchanged -/

section
variable {s t : State} {m : Mainline}

/-- Everything the later step at position `m` can do to `s` (R86, R90, R114, R115). -/
inductive LaterStep (s : State) : Mainline → State → Prop
  | putM2 (n : Inst) (w : Nat) (b : Byte) (hw : w < (s.params n).capTx) : LaterStep s (.putM2 n w b)
      ((s.setUart n { s.uart n with bufT := (s.uart n).bufT.write w b }).setMl (.putM3 n w b))
  | putM3 (n : Inst) (w : Nat) (b : Byte) : LaterStep s (.putM3 n w b)
      ((s.setUart n { s.uart n with twr := nextSlot (s.params n).capTx w }).setMl (.putM4 n w b))
  | putM4 (n : Inst) (w : Nat) (b : Byte) : LaterStep s (.putM4 n w b)
      (respond 1#32 (s.setUart n { s.uart n with tie := true }))
  | getM2 (n : Inst) (r : Nat) (v : Byte) (hr : r < (s.params n).capRx)
      (hv : (s.uart n).bufR.read r = some v) : LaterStep s (.getM2 n r) (s.setMl (.getM3 n r v))
  | getM3 (n : Inst) (r : Nat) (v : Byte) : LaterStep s (.getM3 n r v)
      (respond (byteResponse v) (s.setUart n { s.uart n with rrd := nextSlot (s.params n).capRx r }))
  | bputM2 (n : Inst) (b : Byte) : LaterStep s (.bputM2 n b)
      (respond 0#32 (s.setUart n { s.uart n with tdr := some b, tdre := false }))
  | bgetM2 (n : Inst) (v : Byte) (hv : (s.uart n).rdr = some v) : LaterStep s (.bgetM2 n)
      (respond (byteResponse v) (s.setUart n { s.uart n with rdrf := false }))

theorem resume_next (h : resume s = .next t) : LaterStep s s.ml t := by
  unfold resume at h
  cases hml : s.ml with rw [hml] at h
  | idle => cases h
  | putM2 n w b =>
    obtain ⟨hw, rfl⟩ := putWrite_next h
    exact .putM2 n w b hw
  | putM3 n w b =>
    cases h
    exact .putM3 n w b
  | putM4 n w b =>
    cases h
    exact .putM4 n w b
  | getM2 n r =>
    obtain ⟨v, hr, hv, rfl⟩ := getRead_next h
    exact .getM2 n r v hr hv
  | getM3 n r v =>
    cases h
    exact .getM3 n r v
  | bputM2 n b =>
    cases h
    exact .bputM2 n b
  | bgetM2 n =>
    obtain ⟨v, hv, rfl⟩ := bgetRead_next h
    exact .bgetM2 n v hv

/-- A later step replaces the UART the request addresses, and moves the mainline on or responds. -/
theorem LaterStep.replaces (h : LaterStep s m t) : ∃ n u, m.inst? = some n ∧
    ((∃ m', t = (s.setUart n u).setMl m') ∨ ∃ x, t = respond x (s.setUart n u)) := by
  cases h with
  | putM2 n w b hw => exact ⟨n, _, rfl, .inl ⟨_, rfl⟩⟩
  | putM3 n w b => exact ⟨n, _, rfl, .inl ⟨_, rfl⟩⟩
  | getM2 n r v hr hv => exact ⟨n, s.uart n, rfl, .inl ⟨_, by rw [setUart_uart]⟩⟩
  | _ n => exact ⟨n, _, rfl, .inr ⟨_, rfl⟩⟩

theorem LaterStep.surroundings (h : LaterStep s m t) :
    t.cfg = s.cfg ∧ t.fault = s.fault ∧ t.program = s.program ∧ t.agenda = s.agenda ∧
    t.tick = s.tick ∧ ∀ k, m.inst? ≠ some k → t.uart k = s.uart k := by
  obtain ⟨n, u, hn, h⟩ := h.replaces
  have huart (k : Inst) (hk : m.inst? ≠ some k) : (s.setUart n u).uart k = s.uart k :=
    uart_setUart_of_ne s u fun he => hk (he ▸ hn)
  obtain ⟨m', rfl⟩ | ⟨x, rfl⟩ := h
  · simpa using huart
  · simpa using huart

end

/-- Settles O58: a later step replaces its own UART only, in the registers its rule names. -/
theorem laterStepFrame : Obligations.LaterStepFrame := by
  unfold Obligations.LaterStepFrame
  intro s t h
  have step := resume_next h
  obtain ⟨hcfg, hfault, hprogram, hagenda, htick, huart⟩ := step.surroundings
  refine ⟨hcfg, hfault, hprogram, hagenda, htick, huart, ?_⟩
  clear h huart
  generalize s.ml = m at step
  cases step with dsimp only
  | putM2 n w b hw =>
    rw [setMl_uart, uart_setUart_same]
    exact ⟨fun k hk => Memory.read_write_other _ b hk, setUart_resps s n _, rfl⟩
  | putM3 n w b =>
    rw [setMl_uart, uart_setUart_same]
    exact ⟨setUart_resps s n _, rfl⟩
  | getM2 n r v hr hv => exact ⟨rfl, setMl_uart s n _⟩
  | _ n => rw [respond_uart, uart_setUart_same]

/-! ## The other UART is neither read nor written (R93, R106) -/

/-- `f` neither reads nor writes UART `k`: replacing it before `f` comes to replacing it after. -/
def Ignores (k : Inst) (f : State → Answer) : Prop :=
  ∀ (s : State) (u : Uart), f (s.setUart k u) = mapNext (·.setUart k u) (f s)

theorem raiseFor_ignores (k : Inst) (i : Instr) (c : FaultCode) : Ignores k (raiseFor i c) :=
  fun s u => congrArg Host.Outcome.next (raiseFault_setUart s k u (encode i).opw c)

/-- CALC reads and writes no UART (R85). -/
theorem execCalc_ignores (k : Inst) (clk baud : Word) : Ignores k (execCalc clk baud) := by
  intro s u
  unfold execCalc
  cases rateCalc clk baud with
  | error c => exact raiseFor_ignores k _ c s u
  | ok p => simp [mapNext, respond_setUart]

section
variable {n k : Inst} (h : n ≠ k)
include h

theorem setUart_comm_of_ne (s : State) (v u : Uart) :
    (s.setUart n v).setUart k u = (s.setUart k u).setUart n v := by
  rw [eq_other_of_ne h.symm, setUart_comm]

theorem channelCheck_setUart_of_ne (s : State) (u : Uart) (mode : ChanMode) :
    channelCheck (s.setUart k u) n mode = channelCheck s n mode :=
  channelCheck_congr mode (uart_setUart_of_ne s u h) (setUart_params s k n u)

theorem image_setUart_of_ne (s : State) (u : Uart) (sel : Byte) :
    image (s.setUart k u) n sel = image s n sel := by
  simp [image, uart_setUart_of_ne s u h]

/-! ### The instructions that address one UART -/

theorem execInit_ignores (baud : Word) : Ignores k (execInit n baud) := by
  intro s u
  simp only [execInit, uart_setUart_of_ne s u h, setUart_params]
  split
  · exact raiseFor_ignores k _ _ s u
  · cases rateCalc (s.params n).moduleClockHz baud with
    | error c => exact raiseFor_ignores k _ c s u
    | ok p => simp [mapNext, respond_setUart, setUart_comm_of_ne h]

theorem execStart_ignores : Ignores k (execStart n) := by
  intro s u
  simp only [execStart, uart_setUart_of_ne s u h, setUart_params]
  split
  · exact raiseFor_ignores k _ _ s u
  · split
    · exact raiseFor_ignores k _ _ s u
    · simp [mapNext, respond_setUart, setUart_comm_of_ne h]

theorem execPut_ignores (b : Byte) : Ignores k (execPut n b) := by
  intro s u
  simp only [execPut, channelCheck_setUart_of_ne h, uart_setUart_of_ne s u h, setUart_params]
  split
  · exact raiseFor_ignores k _ _ s u
  · split
    · simp [mapNext, respond_setUart]
    · simp [mapNext, setMl_setUart]

theorem execGet_ignores : Ignores k (execGet n) := by
  intro s u
  simp only [execGet, channelCheck_setUart_of_ne h, uart_setUart_of_ne s u h]
  split
  · exact raiseFor_ignores k _ _ s u
  · split
    · simp [mapNext, respond_setUart]
    · simp [mapNext, setMl_setUart]

theorem execBput_ignores (b : Byte) : Ignores k (execBput n b) := by
  intro s u
  simp only [execBput, channelCheck_setUart_of_ne h]
  split
  · exact raiseFor_ignores k _ _ s u
  · simp [mapNext, setMl_setUart]

theorem execBget_ignores : Ignores k (execBget n) := by
  intro s u
  simp only [execBget, channelCheck_setUart_of_ne h]
  split
  · exact raiseFor_ignores k _ _ s u
  · simp [mapNext, setMl_setUart]

theorem execStat_ignores (sel : Byte) : Ignores k (execStat n sel) := by
  intro s u
  simp only [execStat, image_setUart_of_ne h]
  split
  · simp [mapNext, respond_setUart]
  · exact raiseFor_ignores k _ _ s u

theorem execTxi_ignores : Ignores k (execTxi n) := by
  intro s u
  simp only [execTxi, uart_setUart_of_ne s u h, setUart_params, setUart_cfg]
  split
  · simp [mapNext, setUart_comm_of_ne h]
  · split
    · rfl
    · simp [mapNext, setUart_comm_of_ne h]

theorem execRxi_ignores : Ignores k (execRxi n) := by
  intro s u
  simp only [execRxi, uart_setUart_of_ne s u h, setUart_params]
  split
  · rfl
  · split
    · simp [mapNext, setUart_comm_of_ne h]
    · split
      · rfl
      · simp [mapNext, setUart_comm_of_ne h]

/-! ### The later steps and the Line steps -/

theorem putWrite_ignores (w : Nat) (b : Byte) : Ignores k (putWrite n w b) := by
  intro s u
  simp only [putWrite, uart_setUart_of_ne s u h, setUart_params]
  split
  · rfl
  · simp [mapNext, setMl_setUart, setUart_comm_of_ne h]

theorem putPublish_ignores (w : Nat) (b : Byte) : Ignores k (putPublish n w b) := by
  intro s u
  simp [putPublish, mapNext, uart_setUart_of_ne s u h, setMl_setUart, setUart_comm_of_ne h]

theorem putArm_ignores : Ignores k (putArm n) := by
  intro s u
  simp [putArm, mapNext, uart_setUart_of_ne s u h, respond_setUart, setUart_comm_of_ne h]

theorem getRead_ignores (r : Nat) : Ignores k (getRead n r) := by
  intro s u
  simp only [getRead, uart_setUart_of_ne s u h, setUart_params]
  split
  · rfl
  · simp [mapNext, setMl_setUart]

theorem getPublish_ignores (r : Nat) (v : Byte) : Ignores k (getPublish n r v) := by
  intro s u
  simp [getPublish, mapNext, uart_setUart_of_ne s u h, respond_setUart, setUart_comm_of_ne h]

theorem bputWrite_ignores (b : Byte) : Ignores k (bputWrite n b) := by
  intro s u
  simp [bputWrite, mapNext, uart_setUart_of_ne s u h, respond_setUart, setUart_comm_of_ne h]

theorem bgetRead_ignores : Ignores k (bgetRead n) := by
  intro s u
  simp only [bgetRead, uart_setUart_of_ne s u h]
  split
  · rfl
  · simp [mapNext, respond_setUart, setUart_comm_of_ne h]

theorem lineTransmit_ignores : Ignores k (lineTransmit n) := by
  intro s u
  simp only [lineTransmit, uart_setUart_of_ne s u h]
  split
  · rfl
  · simp [mapNext, setUart_comm_of_ne h]

theorem lineReceive_ignores : Ignores k (lineReceive n) := by
  intro s u
  simp only [lineReceive, uart_setUart_of_ne s u h]
  split
  · rfl
  · simp [mapNext, setUart_comm_of_ne h]

end

section
variable {k : Inst}

/-- An instruction ignores every UART it does not address. -/
theorem exec_ignores {i : Instr} (h : ∀ n, i.inst? = some n → n ≠ k) : Ignores k (exec i) := by
  cases i with
  | calcDiv clk baud => exact execCalc_ignores k clk baud
  | init n baud => exact execInit_ignores (h n rfl) baud
  | start n => exact execStart_ignores (h n rfl)
  | put n b => exact execPut_ignores (h n rfl) b
  | get n => exact execGet_ignores (h n rfl)
  | bput n b => exact execBput_ignores (h n rfl) b
  | bget n => exact execBget_ignores (h n rfl)
  | stat n sel => exact execStat_ignores (h n rfl) sel
  | txi n => exact execTxi_ignores (h n rfl)
  | rxi n => exact execRxi_ignores (h n rfl)

/-- A later step ignores every UART its request does not address. -/
theorem resume_setUart_of_ne {s : State} (u : Uart) (h : ∀ n, s.ml.inst? = some n → n ≠ k) :
    resume (s.setUart k u) = mapNext (·.setUart k u) (resume s) := by
  unfold resume
  rw [setUart_ml]
  cases hml : s.ml with rw [hml] at h
  | idle => rfl
  | putM2 n w b => exact putWrite_ignores (h n rfl) w b s u
  | putM3 n w b => exact putPublish_ignores (h n rfl) w b s u
  | putM4 n w b => exact putArm_ignores (h n rfl) s u
  | getM2 n r => exact getRead_ignores (h n rfl) r s u
  | getM3 n r v => exact getPublish_ignores (h n rfl) r v s u
  | bputM2 n b => exact bputWrite_ignores (h n rfl) b s u
  | bgetM2 n => exact bgetRead_ignores (h n rfl) s u

end

/-- Settles O53: instructions, later steps and Line steps ignore every UART but their own. -/
theorem instancesAreIndependent : Obligations.InstancesAreIndependent := by
  unfold Obligations.InstancesAreIndependent
  refine ⟨fun i n s u hi => exec_ignores (fun m hm => ?_) s u,
    fun n s u hn => resume_setUart_of_ne u fun m hm => ?_, fun n s u m hm => ?_⟩
  · obtain hi | hi := hi
    · obtain rfl : m = n := Option.some.inj (hm.symm.trans hi)
      exact ne_other m
    · exact absurd (hm.symm.trans hi) nofun
  · obtain rfl : m = n := Option.some.inj (hm.symm.trans hn)
    exact ne_other m
  · obtain rfl | rfl := hm
    · exact lineTransmit_ignores (ne_other n) s u
    · exact lineReceive_ignores (ne_other n) s u

end Sys2Proof.Machine

/-! PROOF. 42_channel_interrupt.md: TXI and RXI over each kind of queue (R94 to R99), and who sets and who
clears an interrupt source (R25, R104, R105). -/

namespace Sys2Proof.Machine

/-! ## TXI and RXI, an equation per branch (R94 to R99) -/

section
variable {s : State} {n : Inst} {b v : Byte}

theorem exec_txi_of_empty (he : (s.uart n).twr = (s.uart n).trd) : exec (.txi n) s =
    .next (s.setUart n (disarmIfEmpty s.cfg.txIdlePolicy (s.uart n))) := by
  simp [exec, execTxi, isEmpty, he]

theorem exec_txi_of_ready (hne : (s.uart n).twr ≠ (s.uart n).trd)
    (htrd : (s.uart n).trd < (s.params n).capTx)
    (hb : (s.uart n).bufT.read (s.uart n).trd = some b) : exec (.txi n) s =
    .next (s.setUart n (disarmIfEmpty s.cfg.txIdlePolicy { s.uart n with
      tdr := some b, tdre := false, trd := nextSlot (s.params n).capTx (s.uart n).trd })) := by
  simp [exec, execTxi, txSend, isEmpty, hne, readSlot_ok.2 ⟨htrd, hb⟩]

theorem exec_rxi_of_full (hv : (s.uart n).rdr = some v)
    (hfull : nextSlot (s.params n).capRx (s.uart n).rwr = (s.uart n).rrd) : exec (.rxi n) s =
    .next (s.setUart n { s.uart n with rdrf := false, rxdrop := (s.uart n).rxdrop + 1#32 }) := by
  simp [exec, execRxi, readData_ok.2 hv, isFull, hfull]

theorem exec_rxi_of_room (hv : (s.uart n).rdr = some v)
    (hrwr : (s.uart n).rwr < (s.params n).capRx)
    (hroom : nextSlot (s.params n).capRx (s.uart n).rwr ≠ (s.uart n).rrd) : exec (.rxi n) s =
    .next (s.setUart n { s.uart n with
      rdrf := false, bufR := (s.uart n).bufR.write (s.uart n).rwr v,
      rwr := nextSlot (s.params n).capRx (s.uart n).rwr }) := by
  simp [exec, execRxi, rxStore, readData_ok.2 hv, isFull, hroom, writeSlot_ok.2 ⟨hrwr, rfl⟩]

end

/-- Settles O25: the front byte is sent, and disarming looks at the queue that is left. -/
theorem txiSendsFrontByte : Obligations.TxiSendsFrontByte := by
  unfold Obligations.TxiSendsFrontByte
  intro s n b hne htrd hb
  rw [exec_txi_of_ready hne.symm htrd hb]
  unfold disarmIfEmpty
  cases s.cfg.txIdlePolicy with
  | disarm =>
    by_cases hlast : ((s.uart n).trd + 1) % (s.params n).capTx = (s.uart n).twr
    · simp [isEmpty, nextSlot, hlast]
    · simp [isEmpty, nextSlot, hlast, Ne.symm hlast]
  | keepArmed => simp [nextSlot]

/-- Settles O26: only disarming is left of TXI, and under KEEP_ARMED it does nothing. -/
theorem txiOverEmptyQueue : Obligations.TxiOverEmptyQueue := by
  unfold Obligations.TxiOverEmptyQueue
  intro s n he
  rw [exec_txi_of_empty he.symm]
  constructor
  · intro hp
    simp [disarmIfEmpty, hp, isEmpty, he]
  · intro hp
    simp [disarmIfEmpty, hp]

/-- Settles O27: the byte goes into the slot at the write cursor, and a write leaves every other slot. -/
theorem rxiStoresByte : Obligations.RxiStoresByte := by
  unfold Obligations.RxiStoresByte
  intro s n v hv hrwr hroom
  exact ⟨exec_rxi_of_room hv hrwr hroom, Memory.read_write_same _ _ v,
    fun k hk => Memory.read_write_other _ v hk⟩

/-- Settles O28: the count is a 32-bit word, so adding 1 to it wraps. -/
theorem rxiDropsNewest : Obligations.RxiDropsNewest := by
  unfold Obligations.RxiDropsNewest
  intro s n v hv hfull
  exact ⟨_, BitVec.toNat_add _ 1#32, exec_rxi_of_full hv hfull⟩

/-! ## The interrupt step in terms of the two entry points (R128 b) -/

section
variable {s t : State} {n : Inst} (hm : choose s = some (.irq n)) (hs : step s = .next t)
include hm hs

theorem execRxi_of_step (hx : rxIrq (s.uart n) = true) : execRxi n (advance s) = .next t := by
  obtain ⟨-, -, hrun⟩ := step_chosen hm hs
  rwa [runMove_irq_of_rxIrq (by simpa using hx)] at hrun

theorem execTxi_of_step (hx : rxIrq (s.uart n) = false) : execTxi n (advance s) = .next t := by
  obtain ⟨-, -, hrun⟩ := step_chosen hm hs
  rwa [runMove_irq_of_not_rxIrq (by simp [hx])] at hrun

end

/-! ## The sources of an interrupt (R25, R104, R105) -/

section
variable {s t : State} {m : Move} {n : Inst}

/-- Under DISARM a TXI that moves no cursor found the queue empty, and disarms (R96). -/
theorem execTxi_disarms (h : execTxi n s = .next t) (hp : s.cfg.txIdlePolicy = .disarm)
    (hC : 2 ≤ (s.params n).capTx) (htrd : (t.uart n).trd = (s.uart n).trd) :
    (t.uart n).tie = false := by
  obtain ⟨he, rfl⟩ | ⟨b, -, hlt, -, rfl⟩ := execTxi_next h
  · simp [disarmIfEmpty_eq, hp, he]
  · rw [uart_setUart_same, disarmIfEmpty_eq] at htrd
    exact absurd htrd (nextSlot_ne hC hlt)

/-- Every RXI clears RDRF, over a full queue too (R104). -/
theorem execRxi_clears_rdrf (h : execRxi n s = .next t) : (t.uart n).rdrf = false := by
  obtain ⟨v, -, ⟨-, rfl⟩ | ⟨-, -, rfl⟩⟩ := execRxi_next h <;> rw [uart_setUart_same]

/-- Of all steps only PUT's M4 and START set TIE (R105). -/
theorem uartEffect_tie (e : UartEffect s m n t) (hs : (s.uart n).tie = false)
    (ht : (t.uart n).tie = true) :
    m = .main ∧ ((∃ w b, s.ml = .putM4 n w b) ∨
      ((s.uart n).life = .configured ∧ (t.uart n).life = .running)) := by
  cases e with
  | armed w b hm hml h => exact ⟨hm, .inl ⟨w, b, hml⟩⟩
  | enabled hm hml r rest hp hd hl h => exact ⟨hm, .inr ⟨hl, by rw [h, enable_eq]⟩⟩
  | txEmpty hm hx he h => simp [h, disarmIfEmpty_eq, hs] at ht
  | txSent hm hx b he h => simp [h, disarmIfEmpty_eq, hs] at ht
  | received hm v rest hw h =>
    rw [h, receive_eq] at ht
    exact absurd (hs.symm.trans ht) (by decide)
  | _ =>
    rename_i h
    rw [h] at ht
    exact absurd (hs.symm.trans ht) (by decide)

/-- Of all steps only a Line step that takes a byte from the wire sets RDRF (R104). -/
theorem uartEffect_rdrf (e : UartEffect s m n t) (hs : (s.uart n).rdrf = false)
    (ht : (t.uart n).rdrf = true) :
    m = .lrx n ∧ ∃ v, (s.uart n).wireIn = v :: (t.uart n).wireIn ∧ (t.uart n).rdr = some v := by
  cases e with
  | received hm v rest hw h =>
    obtain ⟨-, hlost⟩ | ⟨-, -, htaken⟩ | ⟨-, hfull, -⟩ :=
      receive_cases v { s.uart n with wireIn := rest }
    · rw [h, hlost] at ht
      exact absurd (hs.symm.trans ht) (by decide)
    · rw [h, htaken]
      exact ⟨hm, v, hw, rfl⟩
    · exact absurd (hs.symm.trans hfull) (by decide)
  | enabled hm hml r rest hp hd hl h =>
    rw [h, enable_eq] at ht
    exact absurd (hs.symm.trans ht) (by decide)
  | txEmpty hm hx he h =>
    rw [h, disarmIfEmpty_eq] at ht
    exact absurd (hs.symm.trans ht) (by decide)
  | txSent hm hx b he h =>
    rw [h, disarmIfEmpty_eq] at ht
    exact absurd (hs.symm.trans ht) (by decide)
  | polledRead hm hml h => simp [h] at ht
  | rxDropped hm hx h => simp [h] at ht
  | rxStored hm hx v h => simp [h] at ht
  | _ =>
    rename_i h
    rw [h] at ht
    exact absurd (hs.symm.trans ht) (by decide)

end

/-- Settles O54: each of the two entry points discharges its source, and of all effects only three set a
source or its flag. -/
theorem interruptSourcesAreDischarged : Obligations.InterruptSourcesAreDischarged := by
  unfold Obligations.InterruptSourcesAreDischarged
  intro s t m n hm hs
  have e := (step_effect n hm hs).1
  refine ⟨?_, uartEffect_tie e, ?_, uartEffect_rdrf e⟩
  · rintro rfl hx hp htrd hC -
    exact execTxi_disarms (execTxi_of_step hm hs hx) hp hC (by simpa using htrd)
  · rintro rfl hx
    exact execRxi_clears_rdrf (execRxi_of_step hm hs hx)

end Sys2Proof.Machine

/-! PROOF. 42_channel_interrupt.md: the invariant carried through every step (R100, R102, R103, R112, R116),
and that no step from it reads what holds nothing (R18, R102). -/

namespace Sys2Proof.Machine

/-! ## LIFE and the control bits (R109 to R112, R116) -/

section
variable {mode : ChanMode} {u : Uart}

/-- In a running UART LIFE binds neither the flags nor the data registers nor the wire. -/
theorem lifeInv_of_running_flags {u' : Uart} (h : LifeInv mode u) (hl : u.life = .running)
    (hu : u' = { u with
      tdre := u'.tdre, rdrf := u'.rdrf, tdr := u'.tdr, rdr := u'.rdr,
      wireIn := u'.wireIn, wireOut := u'.wireOut }) : LifeInv mode u' := by
  rw [hu]
  unfold LifeInv at h ⊢
  dsimp only
  rw [hl] at h ⊢
  exact h

theorem disabled_of_not_running (h : LifeInv mode u) (hl : u.life ≠ .running) :
    Disabled u ∧ CursorsZero u := by
  unfold LifeInv at h
  cases hlife : u.life with
  | uninit => exact (hlife ▸ h).2
  | configured => exact (hlife ▸ h).2
  | running => exact absurd hlife hl

/-- Transmitter and receiver are on only in a running UART. -/
theorem running_of_enabled (h : LifeInv mode u) (he : u.te = true ∨ u.re = true) :
    u.life = .running := by
  by_contra hl
  obtain ⟨⟨hte, hre, -⟩, -⟩ := disabled_of_not_running h hl
  simp [hte, hre] at he

/-- Before START the cursors are at 0, so of them INIT writes nothing new. -/
theorem configure_of_cursorsZero (h : CursorsZero u) (baud : Word) (d : BitVec 13) (f : BitVec 5) :
    configure u baud d f = { rateWrite u d f with
      prdy := true, baud := baud, rxdrop := 0#32, life := .configured } := by
  obtain ⟨htwr, htrd, hrwr, hrrd⟩ := h
  simp [configure, rateWrite, htwr, htrd, hrwr, hrrd]

end

/-! ## The two queues of a UART under each thing a step does to one (R33, R57) -/

section
variable {c : InstConfig} {u : Uart} (hcur : CursorInv c u) (b : Byte)
include hcur

theorem txQueue_writeSlot : txQueue c.capTx { u with bufT := u.bufT.write u.twr b } = txQueue c.capTx u := by
  obtain ⟨htwr, htrd, -, -⟩ := hcur
  exact queue_write_slot u.bufT b htwr htrd

theorem txQueue_publish (hroom : nextSlot c.capTx u.twr ≠ u.trd) :
    txQueue c.capTx { u with twr := nextSlot c.capTx u.twr } =
      txQueue c.capTx u ++ [u.bufT.read u.twr] := by
  obtain ⟨htwr, htrd, -, -⟩ := hcur
  exact queue_publish u.bufT htwr htrd hroom

theorem txQueue_front (hne : u.twr ≠ u.trd) : txQueue c.capTx u =
    u.bufT.read u.trd :: txQueue c.capTx { u with trd := nextSlot c.capTx u.trd } := by
  obtain ⟨htwr, htrd, -, -⟩ := hcur
  exact queue_front u.bufT htwr htrd hne.symm

theorem rxQueue_store (hroom : nextSlot c.capRx u.rwr ≠ u.rrd) :
    rxQueue c.capRx { u with bufR := u.bufR.write u.rwr b, rwr := nextSlot c.capRx u.rwr } =
      rxQueue c.capRx u ++ [some b] := by
  obtain ⟨-, -, hrwr, hrrd⟩ := hcur
  have hpublish := queue_publish (u.bufR.write u.rwr b) hrwr hrrd hroom
  rwa [queue_write_slot u.bufR b hrwr hrrd, Memory.read_write_same] at hpublish

theorem rxQueue_front (hne : u.rwr ≠ u.rrd) : rxQueue c.capRx u =
    u.bufR.read u.rrd :: rxQueue c.capRx { u with rrd := nextSlot c.capRx u.rrd } := by
  obtain ⟨-, -, hrwr, hrrd⟩ := hcur
  exact queue_front u.bufR hrwr hrrd hne.symm

end

/-! ## What the invariant asks of one UART, kept by each thing a step does to one -/

section
variable {c : InstConfig} {u : Uart} (h : InstanceInv c u)
include h

/-- The front slot of a TX queue that is not empty was written (R102). -/
theorem txFront_isSome (hne : u.twr ≠ u.trd) : ∃ b, u.bufT.read u.trd = some b := by
  obtain ⟨-, hcur, -, ⟨htx, -⟩, -, -⟩ := h
  rw [txQueue_front hcur hne] at htx
  exact Option.isSome_iff_exists.1 (htx _ List.mem_cons_self)

/-- The front slot of an RX queue that is not empty was written (R102). -/
theorem rxFront_isSome (hne : u.rwr ≠ u.rrd) : ∃ b, u.bufR.read u.rrd = some b := by
  obtain ⟨-, hcur, -, ⟨-, hrx⟩, -, -⟩ := h
  rw [rxQueue_front hcur hne] at hrx
  exact Option.isSome_iff_exists.1 (hrx _ List.mem_cons_self)

theorem instanceInv_configure (hl : u.life = .uninit) (baud : Word) (d : BitVec 13) (f : BitVec 5) :
    InstanceInv c (configure u baud d f) := by
  obtain ⟨hlife, hcur, hstore, hwritten, hdata, hrate⟩ := h
  obtain ⟨hdisabled, hzero⟩ := disabled_of_not_running hlife (by simp [hl])
  rw [configure_of_cursorsZero hzero]
  exact ⟨⟨rfl, hdisabled, hzero⟩, hcur, hstore, hwritten, hdata, (otherOf_rateMerge _ d f).trans hrate⟩

theorem instanceInv_enable (hl : u.life = .configured) : InstanceInv c (enable c.mode u) := by
  obtain ⟨hlife, hcur, hstore, hwritten, hdata, hrate⟩ := h
  have hprdy : u.prdy = true := by
    simp only [LifeInv, hl] at hlife
    exact hlife.1
  obtain ⟨⟨-, -, hrie, htie, -, -⟩, hzero⟩ := disabled_of_not_running hlife (by simp [hl])
  have hrunning : LifeInv c.mode (enable c.mode u) := by
    cases c.mode with
    | queued => exact ⟨hprdy, rfl, rfl, rfl, nofun⟩
    | polled => exact ⟨hprdy, rfl, rfl, hrie, fun _ => ⟨htie, hzero⟩⟩
  rw [enable_eq] at hrunning ⊢
  exact ⟨hrunning, hcur, hstore, hwritten, hdata, hrate⟩

theorem instanceInv_rdrf_cleared : InstanceInv c { u with rdrf := false } := by
  obtain ⟨hlife, hcur, hstore, hwritten, ⟨htdr, -⟩, hrate⟩ := h
  refine ⟨?_, hcur, hstore, hwritten, ⟨htdr, nofun⟩, hrate⟩
  by_cases hl : u.life = .running
  · exact lifeInv_of_running_flags hlife hl rfl
  · obtain ⟨⟨-, -, -, -, -, hrdrf⟩, -⟩ := disabled_of_not_running hlife hl
    rw [← hrdrf]
    exact hlife

theorem instanceInv_arrived (v : Byte) (rest : List Byte) :
    InstanceInv c (receive v { u with wireIn := rest }) := by
  obtain ⟨-, hlost⟩ | ⟨hre, -, htaken⟩ | ⟨-, -, hoverrun⟩ := receive_cases v { u with wireIn := rest }
  · rw [hlost]
    exact h
  · obtain ⟨hlife, hcur, hstore, hwritten, ⟨htdr, -⟩, hrate⟩ := h
    have hl : u.life = .running := running_of_enabled hlife (.inr hre)
    rw [htaken]
    exact ⟨lifeInv_of_running_flags hlife hl rfl, hcur, hstore, hwritten,
      ⟨htdr, fun _ => rfl⟩, hrate⟩
  · rw [hoverrun]
    exact h

section
variable (hl : u.life = .running)
include hl

theorem instanceInv_transmitted (wire : List Byte) :
    InstanceInv c { u with wireOut := wire, tdre := true } := by
  obtain ⟨hlife, hcur, hstore, hwritten, ⟨-, hrdr⟩, hrate⟩ := h
  exact ⟨lifeInv_of_running_flags hlife hl rfl, hcur, hstore, hwritten,
    ⟨nofun, hrdr⟩, hrate⟩

theorem instanceInv_tdr_written (b : Byte) : InstanceInv c { u with tdr := some b, tdre := false } := by
  obtain ⟨hlife, hcur, hstore, hwritten, ⟨-, hrdr⟩, hrate⟩ := h
  exact ⟨lifeInv_of_running_flags hlife hl rfl, hcur, hstore, hwritten,
    ⟨fun _ => rfl, hrdr⟩, hrate⟩

variable (hq : c.mode = .queued)
include hq

theorem instanceInv_tie (x : Bool) : InstanceInv c { u with tie := x } := by
  obtain ⟨hlife, hcur, hstore, hwritten, hdata, hrate⟩ := h
  exact ⟨lifeInv_of_running hlife hl hq rfl rfl rfl rfl rfl, hcur, hstore, hwritten, hdata, hrate⟩

theorem instanceInv_disarmIfEmpty (p : TxIdlePolicy) : InstanceInv c (disarmIfEmpty p u) := by
  rw [disarmIfEmpty_eq]
  exact instanceInv_tie h hl hq _

theorem instanceInv_slot_written (b : Byte) :
    InstanceInv c { u with bufT := u.bufT.write u.twr b } := by
  obtain ⟨hlife, hcur, ⟨hwfT, hinT, hwfR, hinR⟩, ⟨htx, hrx⟩, hdata, hrate⟩ := h
  have htwr : u.twr < c.capTx := hcur.1
  refine ⟨lifeInv_of_running hlife hl hq rfl rfl rfl rfl rfl, hcur,
    ⟨Memory.wf_write _ b hwfT, Memory.within_write b htwr hinT, hwfR, hinR⟩, ⟨?_, hrx⟩, hdata, hrate⟩
  rw [txQueue_writeSlot hcur]
  exact htx

theorem instanceInv_published {b : Byte} (hroom : nextSlot c.capTx u.twr ≠ u.trd)
    (hb : u.bufT.read u.twr = some b) : InstanceInv c { u with twr := nextSlot c.capTx u.twr } := by
  obtain ⟨hlife, hcur, hstore, ⟨htx, hrx⟩, hdata, hrate⟩ := h
  obtain ⟨htwr, htrd, hrwr, hrrd⟩ := hcur
  refine ⟨lifeInv_of_running hlife hl hq rfl rfl rfl rfl rfl,
    ⟨nextSlot_lt (Nat.zero_lt_of_lt htwr), htrd, hrwr, hrrd⟩, hstore, ⟨?_, hrx⟩, hdata, hrate⟩
  rw [txQueue_publish ⟨htwr, htrd, hrwr, hrrd⟩ hroom, hb]
  exact List.forall_mem_append.2 ⟨htx, by simp⟩

theorem instanceInv_consumed (hne : u.rwr ≠ u.rrd) :
    InstanceInv c { u with rrd := nextSlot c.capRx u.rrd } := by
  obtain ⟨hlife, hcur, hstore, ⟨htx, hrx⟩, hdata, hrate⟩ := h
  obtain ⟨htwr, htrd, hrwr, hrrd⟩ := hcur
  rw [rxQueue_front ⟨htwr, htrd, hrwr, hrrd⟩ hne] at hrx
  exact ⟨lifeInv_of_running hlife hl hq rfl rfl rfl rfl rfl,
    ⟨htwr, htrd, hrwr, nextSlot_lt (Nat.zero_lt_of_lt hrrd)⟩, hstore,
    ⟨htx, fun x hx => hrx x (List.mem_cons_of_mem _ hx)⟩, hdata, hrate⟩

theorem instanceInv_sent (hne : u.twr ≠ u.trd) (b : Byte) : InstanceInv c { u with
    tdr := some b, tdre := false, trd := nextSlot c.capTx u.trd } := by
  obtain ⟨hlife, hcur, hstore, ⟨htx, hrx⟩, hdata, hrate⟩ := instanceInv_tdr_written h hl b
  obtain ⟨htwr, htrd, hrwr, hrrd⟩ := hcur
  rw [txQueue_front ⟨htwr, htrd, hrwr, hrrd⟩ hne] at htx
  exact ⟨lifeInv_of_running hlife hl hq rfl rfl rfl rfl rfl,
    ⟨htwr, nextSlot_lt (Nat.zero_lt_of_lt htrd), hrwr, hrrd⟩, hstore,
    ⟨fun x hx => htx x (List.mem_cons_of_mem _ hx), hrx⟩, hdata, hrate⟩

theorem instanceInv_stored (hroom : nextSlot c.capRx u.rwr ≠ u.rrd) (v : Byte) :
    InstanceInv c { u with
      rdrf := false, bufR := u.bufR.write u.rwr v, rwr := nextSlot c.capRx u.rwr } := by
  obtain ⟨hlife, hcur, ⟨hwfT, hinT, hwfR, hinR⟩, ⟨htx, hrx⟩, hdata, hrate⟩ :=
    instanceInv_rdrf_cleared h
  obtain ⟨htwr, htrd, hrwr, hrrd⟩ := hcur
  refine ⟨lifeInv_of_running hlife hl hq rfl rfl rfl rfl rfl,
    ⟨htwr, htrd, nextSlot_lt (Nat.zero_lt_of_lt hrwr), hrrd⟩,
    ⟨hwfT, hinT, Memory.wf_write _ v hwfR, Memory.within_write v hrwr hinR⟩, ⟨htx, ?_⟩, hdata, hrate⟩
  have hqueue := rxQueue_store ⟨htwr, htrd, hrwr, hrrd⟩ v hroom
  exact hqueue ▸ List.forall_mem_append.2 ⟨hrx, by simp⟩

end
end

/-! ## The wake-up (R103) -/

section
variable {p : TxIdlePolicy} {c : InstConfig} {ml : Mainline} {n : Inst} {u : Uart}

theorem wakeInv_of_armed (h : u.tie = true) : WakeInv p c ml n u := fun _ _ _ _ => .inl h

theorem wakeInv_of_not_running (h : u.life ≠ .running) : WakeInv p c ml n u :=
  fun _ hl _ _ => absurd hl h

theorem wakeInv_of_polled (h : c.mode = .polled) : WakeInv p c ml n u :=
  fun _ _ hq _ => by simp [h] at hq

/-- TXI disarms only over an empty queue, where there is nothing to send. -/
theorem wakeInv_disarmIfEmpty (h : u.tie = true) : WakeInv p c ml n (disarmIfEmpty p u) := by
  rw [disarmIfEmpty_eq]
  intro _ _ _ hne
  left
  simp [h, Ne.symm hne]

end

/-! ## One UART replaced, with or without the mainline moving on -/

section
variable {s : State} {n : Inst} {u : Uart} {ml : Mainline} (h : MachineInv s)
  (hU : InstanceInv (s.params n) u)
include h hU

theorem machineInv_setUart (hW : WakeInv s.cfg.txIdlePolicy (s.params n) s.ml n u)
    (hM : MlInv (s.setUart n u)) : MachineInv (s.setUart n u) := by
  obtain ⟨-, -, -, -, hfault⟩ := machineInv_parts h
  exact machineInv_setUart_ml h n u (by simp) (fun _ => rfl) (by simpa using hfault) hU
    (by simpa using hW) (by simp) hM

theorem machineInv_setUart_setMl (hW : WakeInv s.cfg.txIdlePolicy (s.params n) ml n u)
    (hother : ∀ w b, s.ml ≠ .putM4 n.other w b) (hM : MlInv ((s.setUart n u).setMl ml)) :
    MachineInv ((s.setUart n u).setMl ml) := by
  obtain ⟨-, -, -, -, hfault⟩ := machineInv_parts h
  exact machineInv_setUart_ml h n u (by simp) (by simp) (by simpa using hfault) hU hW
    (fun w b hml => absurd hml (hother w b)) hM

theorem machineInv_respond_setUart (hW : WakeInv s.cfg.txIdlePolicy (s.params n) .idle n u)
    (hother : ∀ w b, s.ml ≠ .putM4 n.other w b) (v : Word) :
    MachineInv (respond v (s.setUart n u)) :=
  machineInv_congr (machineInv_setUart_setMl h hU hW hother trivial) rfl rfl rfl rfl rfl

end

/-! ## The mainline's steps keep the invariant -/

section
variable {s t : State} {n : Inst} {m : Move} (h : MachineInv s)
include h

/-- M1 of a request, and the whole of a request of one step. -/
theorem machineInv_request {i : Instr} (hml : s.ml = .idle) (hi : i.isEntryPoint = false)
    (he : exec i s = .next t) : MachineInv t := by
  have hnoM4 : ∀ n w b, s.ml ≠ .putM4 n w b := by simp [hml]
  obtain ⟨-, hinst, -, -, -⟩ := machineInv_parts h
  cases i with
  | calcDiv clk baud =>
    obtain ⟨c, -, rfl⟩ | ⟨d, f, -, rfl⟩ := execCalc_next he
    · exact machineInv_raiseFault h _ c
    · exact machineInv_respond h _ hnoM4
  | init n baud =>
    obtain ⟨-, rfl⟩ | ⟨c, -, -, rfl⟩ | ⟨d, f, hl, -, rfl⟩ := execInit_next he
    · exact machineInv_raiseFault h _ _
    · exact machineInv_raiseFault h _ c
    · exact machineInv_respond_setUart h (instanceInv_configure (hinst n) hl baud d f)
        (wakeInv_of_not_running nofun) (hnoM4 _) _
  | start n =>
    obtain ⟨-, rfl⟩ | ⟨hl, -, rfl⟩ := execStart_next he
    · exact machineInv_raiseFault h _ _
    · refine machineInv_respond_setUart h (instanceInv_enable (hinst n) hl) ?_ (hnoM4 _) _
      cases hmode : (s.params n).mode with
      | queued => exact wakeInv_of_armed rfl
      | polled => exact wakeInv_of_polled hmode
  | put n b =>
    obtain ⟨c, -, rfl⟩ | ⟨-, -, rfl⟩ | ⟨hmode, hroom, rfl⟩ := execPut_next he
    · exact machineInv_raiseFault h _ c
    · exact machineInv_respond h _ hnoM4
    · exact machineInv_setMl h hnoM4 ⟨hmode, rfl, hroom⟩
  | get n =>
    obtain ⟨c, -, rfl⟩ | ⟨-, -, rfl⟩ | ⟨hmode, hne, rfl⟩ := execGet_next he
    · exact machineInv_raiseFault h _ c
    · exact machineInv_respond h _ hnoM4
    · exact machineInv_setMl h hnoM4 ⟨hmode, rfl, hne.symm⟩
  | bput n b =>
    obtain ⟨c, -, rfl⟩ | ⟨hmode, rfl⟩ := execBput_next he
    · exact machineInv_raiseFault h _ c
    · exact machineInv_setMl h hnoM4 hmode
  | bget n =>
    obtain ⟨c, -, rfl⟩ | ⟨hmode, rfl⟩ := execBget_next he
    · exact machineInv_raiseFault h _ c
    · exact machineInv_setMl h hnoM4 hmode
  | stat n sel =>
    obtain ⟨v, -, rfl⟩ | ⟨-, rfl⟩ := execStat_next he
    · exact machineInv_respond h _ hnoM4
    · exact machineInv_raiseFault h _ _
  | txi n => cases hi
  | rxi n => cases hi

/-- The later steps of a request: what the position said of the locals is what the step needs (R89, R92). -/
theorem machineInv_laterStep (hstep : LaterStep s s.ml t) : MachineInv t := by
  obtain ⟨-, hinst, hwake, hM, -⟩ := machineInv_parts h
  unfold MlInv at hM
  generalize hml : s.ml = m at hstep hM
  cases hstep with
  | putM2 n w b hw =>
    obtain ⟨⟨hl, hq⟩, rfl, hroom⟩ := hM
    refine machineInv_setUart_setMl h (instanceInv_slot_written (hinst n) hl hq b) ?_ (by simp [hml]) ?_
    · intro hp _ _ hne
      simpa [hml] using hwake n hp hl hq hne
    · simp only [MlInv, InMode, setMl_ml, setMl_uart, setMl_params, uart_setUart_same, setUart_params]
      exact ⟨⟨hl, hq⟩, trivial, hroom, Memory.read_write_same _ _ b⟩
  | putM3 n w b =>
    obtain ⟨⟨hl, hq⟩, rfl, hroom, hb⟩ := hM
    refine machineInv_setUart_setMl h (instanceInv_published (hinst n) hl hq hroom hb)
      (fun _ _ _ _ => .inr ⟨_, b, rfl⟩) (by simp [hml]) ?_
    simp only [MlInv, InMode, setMl_ml, setMl_uart, setMl_params, uart_setUart_same, setUart_params]
    exact ⟨hl, hq⟩
  | putM4 n w b =>
    obtain ⟨hl, hq⟩ := hM
    exact machineInv_respond_setUart h (instanceInv_tie (hinst n) hl hq true) (wakeInv_of_armed rfl)
      (by simp [hml]) _
  | getM2 n r v hr hv =>
    obtain ⟨hmode, hr', hne⟩ := hM
    exact machineInv_setMl h (by simp [hml]) ⟨hmode, hr', hne, hv⟩
  | getM3 n r v =>
    obtain ⟨⟨hl, hq⟩, rfl, hne, -⟩ := hM
    refine machineInv_respond_setUart h (instanceInv_consumed (hinst n) hl hq hne.symm) ?_
      (by simp [hml]) _
    intro hp _ _ hne
    simpa [hml] using hwake n hp hl hq hne
  | bputM2 n b =>
    obtain ⟨hl, hpolled⟩ := hM
    exact machineInv_respond_setUart h (instanceInv_tdr_written (hinst n) hl b)
      (wakeInv_of_polled hpolled) (by simp [hml]) _
  | bgetM2 n v hv =>
    obtain ⟨-, hpolled⟩ := hM
    exact machineInv_respond_setUart h (instanceInv_rdrf_cleared (hinst n))
      (wakeInv_of_polled hpolled) (by simp [hml]) _

theorem machineInv_runMain (he : runMain s = .next t) : MachineInv t := by
  obtain ⟨r, rest, e, -, -, -, rfl⟩ | ⟨r, rest, i, hml, -, hd, hexec⟩ | ⟨-, hresume⟩ := runMain_next he
  · exact machineInv_raiseFault (machineInv_takeRequest h rest) _ _
  · exact machineInv_request (machineInv_takeRequest h rest) hml (decodeMainline_ok.1 hd).2 hexec
  · exact machineInv_laterStep h (resume_next hresume)

/-! ## The interrupt and the Line steps keep the invariant -/

theorem machineInv_txi (htx : txIrq (s.uart n) = true) (he : execTxi n s = .next t) : MachineInv t := by
  obtain ⟨-, hinst, -, hM, -⟩ := machineInv_parts h
  obtain ⟨hcur, -⟩ := (hinst n).2
  obtain ⟨htie, -⟩ := txIrq_iff.1 htx
  obtain ⟨hl, hq⟩ := running_of_source (hinst n).1 (.inr htie)
  obtain ⟨-, rfl⟩ | ⟨b, hne, htrd, -, rfl⟩ := execTxi_next he
  · refine machineInv_setUart h (instanceInv_disarmIfEmpty (hinst n) hl hq _)
      (wakeInv_disarmIfEmpty htie) ?_
    rw [disarmIfEmpty_eq]
    exact mlInv_setUart hM rfl rfl rfl id rfl fun hne => ⟨hne, rfl⟩
  · refine machineInv_setUart h
      (instanceInv_disarmIfEmpty (instanceInv_sent (hinst n) hl hq hne b) hl hq _)
      (wakeInv_disarmIfEmpty htie) ?_
    rw [disarmIfEmpty_eq]
    refine mlInv_setUart hM rfl rfl rfl ?_ rfl fun hne => ⟨hne, rfl⟩
    intro _ hfull
    exact hne (nextSlot_inj hcur.1 htrd hfull)

theorem machineInv_rxi (hrx : rxIrq (s.uart n) = true) (he : execRxi n s = .next t) : MachineInv t := by
  obtain ⟨-, hinst, hwake, hM, -⟩ := machineInv_parts h
  obtain ⟨hrie, -⟩ := rxIrq_iff.1 hrx
  obtain ⟨hl, hq⟩ := running_of_source (hinst n).1 (.inl hrie)
  obtain ⟨v, -, ⟨-, rfl⟩ | ⟨hroom, -, rfl⟩⟩ := execRxi_next he
  · exact machineInv_setUart h (instanceInv_rdrf_cleared (hinst n)) (hwake n)
      (mlInv_setUart hM rfl rfl rfl id rfl fun hne => ⟨hne, rfl⟩)
  · exact machineInv_setUart h (instanceInv_stored (hinst n) hl hq hroom v) (hwake n)
      (mlInv_setUart hM rfl rfl rfl id rfl fun hne =>
        ⟨hroom.symm, Memory.read_write_other _ v hne⟩)

theorem machineInv_ltx (hte : (s.uart n).te = true) (he : lineTransmit n s = .next t) :
    MachineInv t := by
  obtain ⟨-, hinst, hwake, hM, -⟩ := machineInv_parts h
  have hl := running_of_enabled (hinst n).1 (.inl hte)
  obtain ⟨b, -, rfl⟩ := lineTransmit_next he
  exact machineInv_setUart h (instanceInv_transmitted (hinst n) hl _) (hwake n)
    (mlInv_setUart hM rfl rfl rfl id rfl fun hne => ⟨hne, rfl⟩)

theorem machineInv_lrx (he : lineReceive n s = .next t) : MachineInv t := by
  obtain ⟨-, hinst, hwake, hM, -⟩ := machineInv_parts h
  obtain ⟨-, rfl⟩ | ⟨v, rest, -, rfl⟩ := lineReceive_next he
  · exact h
  · have hU := instanceInv_arrived (hinst n) v rest
    rw [receive_eq] at hU ⊢
    exact machineInv_setUart h hU (hwake n)
      (mlInv_setUart hM rfl rfl rfl id rfl fun hne => ⟨hne, rfl⟩)

/-- The interrupt arbiter runs TXI only where TXIRQ is the source (R128 b). -/
theorem machineInv_runMove (hen : enabled s m = true) (he : runMove m s = .next t) : MachineInv t := by
  cases m with
  | main => exact machineInv_runMain h he
  | irq n =>
    obtain ⟨-, hpending⟩ := enabled_irq_iff.1 hen
    by_cases hx : rxIrq (s.uart n) = true
    · rw [runMove_irq_of_rxIrq hx] at he
      exact machineInv_rxi h hx he
    · have htx : txIrq (s.uart n) = true := (Bool.or_eq_true_iff.1 hpending).resolve_right hx
      rw [runMove_irq_of_not_rxIrq hx] at he
      exact machineInv_txi h htx he
  | ltx n =>
    obtain ⟨-, hte, -⟩ := enabled_ltx_iff.1 hen
    exact machineInv_ltx h hte he
  | lrx n => exact machineInv_lrx h he

theorem machineInv_step (hs : step s = .next t) : MachineInv t := by
  obtain ⟨-, m, -, hen, hrun⟩ := step_next hs
  exact machineInv_runMove (machineInv_advance h) (enabled_advance.trans hen) hrun

end

/-- Settles O46: each agent's step replaces one UART by one that meets the invariant, and leaves or moves on
the mainline's position so that what it says of the cursors stays true. -/
theorem stepKeepsInvariant : Obligations.StepKeepsInvariant := by
  unfold Obligations.StepKeepsInvariant
  exact fun _ _ => machineInv_step

/-! ## No step from the invariant reads what holds nothing (R18, R28, R29, R102) -/

section
variable {s : State} {n : Inst} {m : Move} {f : Fault} (h : MachineInv s)
include h

theorem exec_txi_ne_fault : exec (.txi n) s ≠ .fault f := by
  obtain ⟨-, hinst, -, -, -⟩ := machineInv_parts h
  obtain ⟨⟨-, htrd, -, -⟩, -⟩ := (hinst n).2
  by_cases he : (s.uart n).twr = (s.uart n).trd
  · rw [exec_txi_of_empty he]
    nofun
  · obtain ⟨b, hb⟩ := txFront_isSome (hinst n) he
    rw [exec_txi_of_ready he htrd hb]
    nofun

theorem exec_rxi_ne_fault (hrdrf : (s.uart n).rdrf = true) : exec (.rxi n) s ≠ .fault f := by
  obtain ⟨-, hinst, -, -, -⟩ := machineInv_parts h
  obtain ⟨-, ⟨-, -, hrwr, -⟩, -, -, ⟨-, hrdr⟩, -⟩ := hinst n
  obtain ⟨v, hv⟩ := Option.isSome_iff_exists.1 (hrdr hrdrf)
  by_cases hfull : nextSlot (s.params n).capRx (s.uart n).rwr = (s.uart n).rrd
  · rw [exec_rxi_of_full hv hfull]
    nofun
  · rw [exec_rxi_of_room hv hrwr hfull]
    nofun

theorem lineTransmit_ne_fault (htdre : (s.uart n).tdre = false) : lineTransmit n s ≠ .fault f := by
  obtain ⟨-, hinst, -, -, -⟩ := machineInv_parts h
  obtain ⟨-, -, -, -, ⟨htdr, -⟩, -⟩ := hinst n
  obtain ⟨b, hb⟩ := Option.isSome_iff_exists.1 (htdr htdre)
  simp [lineTransmit, readData_ok.2 hb]

/-- A later step uses the slot its position names, or the data register its guard waited for. -/
theorem resume_ne_fault (hbusy : s.ml ≠ .idle)
    (hready : ∀ n, s.ml = .bgetM2 n → (s.uart n).rdrf = true) : resume s ≠ .fault f := by
  obtain ⟨-, hinst, -, hM, -⟩ := machineInv_parts h
  unfold MlInv at hM
  unfold resume
  cases hml : s.ml with rw [hml] at hM
  | idle => exact absurd hml hbusy
  | putM2 n w b =>
    obtain ⟨-, rfl, -⟩ := hM
    obtain ⟨⟨htwr, -⟩, -⟩ := (hinst n).2
    simp [putWrite, writeSlot_ok.2 ⟨htwr, rfl⟩]
  | putM3 n w b => nofun
  | putM4 n w b => nofun
  | getM2 n r =>
    obtain ⟨-, rfl, hne⟩ := hM
    obtain ⟨⟨-, -, -, hrrd⟩, -⟩ := (hinst n).2
    obtain ⟨v, hv⟩ := rxFront_isSome (hinst n) hne.symm
    simp [getRead, readSlot_ok.2 ⟨hrrd, hv⟩]
  | getM3 n r v => nofun
  | bputM2 n b => nofun
  | bgetM2 n =>
    obtain ⟨-, -, -, -, ⟨-, hrdr⟩, -⟩ := hinst n
    obtain ⟨v, hv⟩ := Option.isSome_iff_exists.1 (hrdr (hready n hml))
    simp [bgetRead, readData_ok.2 hv]

theorem runMain_ne_fault (hready : mainReady s = true) : runMain s ≠ .fault f := by
  obtain ⟨hml, hp⟩ | ⟨hbusy, -, hbget⟩ := mainReady_iff.1 hready
  · obtain ⟨r, rest, hp⟩ := List.exists_cons_of_ne_nil hp
    cases hd : decodeMainline r with
    | error e =>
      rw [runMain_of_rejected hml hp hd]
      nofun
    | ok i =>
      rw [runMain_of_offer hml hp hd]
      exact exec_ne_fault (decodeMainline_ok.1 hd).2
  · rw [runMain_of_busy hbusy]
    exact resume_ne_fault h hbusy hbget

theorem runMove_ne_fault (hen : enabled s m = true) : runMove m s ≠ .fault f := by
  cases m with
  | main =>
    obtain ⟨-, -, hready⟩ := enabled_main_iff.1 hen
    exact runMain_ne_fault h hready
  | irq n =>
    by_cases hx : rxIrq (s.uart n) = true
    · rw [runMove_irq_of_rxIrq hx]
      exact exec_rxi_ne_fault h (rxIrq_iff.1 hx).2
    · rw [runMove_irq_of_not_rxIrq hx]
      exact exec_txi_ne_fault h
  | ltx n =>
    obtain ⟨-, -, htdre⟩ := enabled_ltx_iff.1 hen
    exact lineTransmit_ne_fault h htdre
  | lrx n => exact lineReceive_ne_fault

/-- From the invariant a step that is chosen answers a next state. -/
theorem step_next_of_choose (hm : choose s = some m) : ∃ t, step s = .next t := by
  obtain ⟨hc, -⟩ := machineInv_parts h
  rw [step_of_choose hc hm]
  cases hrun : runMove m (advance s) with
  | next t => exact ⟨t, rfl⟩
  | fault f =>
    exact absurd hrun
      (runMove_ne_fault (machineInv_advance h) (enabled_advance.trans (choose_enabled hm)))
  | refused r => exact absurd hrun (runMove_ne_refused m)

end

/-- A machine without a step names why it has none, which is no model fault. -/
theorem stopReason_not_modelFault (s : State) : ¬ IsModelFault (stopReason s) := by
  unfold stopReason
  split
  · exact id
  · split <;> exact id

/-- Settles O47: from the invariant the move chosen answers a next state, so the only stop is a machine
without a step. -/
theorem noModelFaultFromInvariant : Obligations.NoModelFaultFromInvariant := by
  unfold Obligations.NoModelFaultFromInvariant
  intro s f h hs
  obtain ⟨hc, -⟩ := machineInv_parts h
  cases hm : choose s with
  | none =>
    have hstop : step s = .fault (stopReason s) := by simp [step, stepMachine, hc, hm]
    cases hstop.symm.trans hs
    exact stopReason_not_modelFault s
  | some m =>
    obtain ⟨t, ht⟩ := step_next_of_choose h hm
    cases ht.symm.trans hs

end Sys2Proof.Machine

/-! PROOF. 42_channel_interrupt.md: the two byte streams of a UART (R57, R101, R117), and the storm of
KEEP_ARMED (R97, R146). -/

namespace Sys2Proof.Machine

/-- A later step of the mainline, where the machine's step is that one. -/
theorem laterStep_of_step {s t : State} (hm : choose s = some .main) (hs : step s = .next t)
    (hbusy : s.ml ≠ .idle) : LaterStep (advance s) s.ml t := by
  obtain ⟨-, -, hrun⟩ := step_chosen hm hs
  rw [runMove_main, runMain_of_busy (s := advance s) hbusy] at hrun
  exact resume_next hrun

/-- A running polled UART uses neither queue (R116). -/
theorem cursorsZero_of_polled {mode : ChanMode} {u : Uart} (h : LifeInv mode u)
    (hl : u.life = .running) (hp : mode = .polled) : CursorsZero u := by
  unfold LifeInv at h
  rw [hl] at h
  obtain ⟨-, -, -, -, hpolled⟩ := h
  exact (hpolled hp).2

/-! ## The bytes on the way out (R101, R117) -/

section
variable {s t : State} {n : Inst} {m : Move}

/-- TXI moves the front byte of the queue into the free TDR. -/
theorem txStream_txi (hcur : CursorInv (s.params n) (s.uart n)) (htdre : (s.uart n).tdre = true)
    (h : execTxi n s = .next t) :
    txStream (s.params n).capTx (t.uart n) = txStream (s.params n).capTx (s.uart n) := by
  obtain ⟨-, rfl⟩ | ⟨b, hne, -, hb, rfl⟩ := execTxi_next h <;>
    rw [uart_setUart_same, disarmIfEmpty_eq]
  · rfl
  · have hfront := txQueue_front hcur hne
    rw [hb] at hfront
    simp only [txStream, txWaiting, htdre, hfront]
    simp [txQueue]

/-- LTX moves the byte in TDR to the end of the wire. -/
theorem txStream_ltx (C : Nat) (htdre : (s.uart n).tdre = false) (h : lineTransmit n s = .next t) :
    txStream C (t.uart n) = txStream C (s.uart n) := by
  obtain ⟨b, hb, rfl⟩ := lineTransmit_next h
  simp [txStream, txWaiting, txQueue, htdre, hb]

/-- The bytes a step adds are those of PUT's M3 and of BPUT's M2. -/
theorem committed_cases (m : Move) (ml : Mainline) (n : Inst) : committed m ml n = [] ∨
    m = .main ∧ ((∃ w b, ml = .putM3 n w b) ∨ ∃ b, ml = .bputM2 n b) := by
  unfold committed
  split
  · split
    · rename_i hk
      subst hk
      exact .inr ⟨rfl, .inl ⟨_, _, rfl⟩⟩
    · exact .inl rfl
  · split
    · rename_i hk
      subst hk
      exact .inr ⟨rfl, .inr ⟨_, rfl⟩⟩
    · exact .inl rfl
  · exact .inl rfl

variable (h : MachineInv s)
include h

theorem txStream_published {w : Nat} {b : Byte} (hml : s.ml = .putM3 n w b)
    (hstep : LaterStep (advance s) (.putM3 n w b) t) :
    txStream (s.params n).capTx (t.uart n) = txStream (s.params n).capTx (s.uart n) ++ [some b] := by
  obtain ⟨-, hinst, -, hM, -⟩ := machineInv_parts h
  obtain ⟨hcur, -⟩ := (hinst n).2
  rw [MlInv, hml] at hM
  obtain ⟨-, rfl, hroom, hb⟩ := hM
  cases hstep
  have hqueue := txQueue_publish hcur hroom
  rw [hb] at hqueue
  simp [txStream, txWaiting, hqueue]

theorem txStream_polledWrite {b : Byte} (hml : s.ml = .bputM2 n b) (htdre : (s.uart n).tdre = true)
    (hstep : LaterStep (advance s) (.bputM2 n b) t) (C : Nat) :
    txStream C (t.uart n) = txStream C (s.uart n) ++ [some b] := by
  obtain ⟨-, hinst, -, hM, -⟩ := machineInv_parts h
  rw [MlInv, hml] at hM
  obtain ⟨hl, hpolled⟩ := hM
  obtain ⟨htwr, htrd, -, -⟩ := cursorsZero_of_polled (hinst n).1 hl hpolled
  cases hstep
  simp [txStream, txWaiting, txQueue, htdre, htwr, htrd, slotsFrom]

/-- No other step changes what is on the way out. -/
theorem txStream_of_committed_nil (hm : choose s = some m) (hs : step s = .next t)
    (hnone : committed m s.ml n = []) :
    txStream (s.params n).capTx (t.uart n) = txStream (s.params n).capTx (s.uart n) := by
  obtain ⟨-, hinst, -, hM, -⟩ := machineInv_parts h
  obtain ⟨hcur, -⟩ := (hinst n).2
  have hen := choose_enabled hm
  have htxi (hirq : m = .irq n) (hx : rxIrq (s.uart n) = false) :
      txStream (s.params n).capTx (t.uart n) = txStream (s.params n).capTx (s.uart n) := by
    subst hirq
    obtain ⟨-, hpending⟩ := enabled_irq_iff.1 hen
    have htdre : (s.uart n).tdre = true :=
      (txIrq_iff.1 ((Bool.or_eq_true_iff.1 hpending).resolve_right (by simp [hx]))).2
    simpa using txStream_txi (by simpa using hcur) (by simpa using htdre) (execTxi_of_step hm hs hx)
  cases (step_effect n hm hs).1 with
  | unchanged _ e => rw [e]
  | configured hmain hml r rest baud hp hd d f hl hr e =>
    rw [e, configure_of_cursorsZero (disabled_of_not_running (hinst n).1 (by simp [hl])).2]
    rfl
  | enabled hmain hml r rest hp hd hl e =>
    rw [e, enable_eq]
    rfl
  | slotWritten w b hmain hml e =>
    rw [MlInv, hml] at hM
    obtain ⟨-, rfl, -⟩ := hM
    rw [e]
    exact congrArg (_ ++ ·) (txQueue_writeSlot hcur b)
  | published w b hmain hml e => simp [committed, hmain, hml] at hnone
  | polledWrite b hmain hml e => simp [committed, hmain, hml] at hnone
  | txEmpty hirq hx he e => exact htxi hirq hx
  | txSent hirq hx b he e => exact htxi hirq hx
  | transmitted hltx b e =>
    subst hltx
    obtain ⟨-, -, htdre⟩ := enabled_ltx_iff.1 hen
    obtain ⟨-, -, hrun⟩ := step_chosen hm hs
    simpa using txStream_ltx (s.params n).capTx (by simpa using htdre) hrun
  | received hlrx v rest hw e =>
    rw [e, receive_eq]
    rfl
  | _ =>
    rename_i e
    rw [e]
    rfl

end

/-- Settles O48: the two steps that commit a byte append it, and every other step moves bytes along. -/
theorem transmitStreamIsFifo : Obligations.TransmitStreamIsFifo := by
  unfold Obligations.TransmitStreamIsFifo
  intro s t m n h hm hs
  obtain hnone | ⟨rfl, ⟨w, b, hml⟩ | ⟨b, hml⟩⟩ := committed_cases m s.ml n
  · rw [txStream_of_committed_nil h hm hs hnone, hnone, List.append_nil]
  · have hstep := laterStep_of_step hm hs (by simp [hml])
    rw [hml] at hstep ⊢
    simpa [committed] using txStream_published h hml hstep
  · have hstep := laterStep_of_step hm hs (by simp [hml])
    obtain ⟨-, -, hready⟩ := enabled_main_iff.1 (choose_enabled hm)
    have htdre : (s.uart n).tdre = true := by simpa [mainReady, hml] using hready
    rw [hml] at hstep ⊢
    simpa [committed] using txStream_polledWrite h hml htdre hstep _

/-! ## The RX queue (R57, R90, R99, R101) -/

section
variable {s t : State} {n : Inst} {m : Move}

/-- RXI puts the byte in RDR at the back, or drops it over a full queue and counts. -/
theorem rxQueue_rxi (hcur : CursorInv (s.params n) (s.uart n)) (h : execRxi n s = .next t) :
    if isFull (s.params n).capRx (s.uart n).rwr (s.uart n).rrd then
      rxQueue (s.params n).capRx (t.uart n) = rxQueue (s.params n).capRx (s.uart n) ∧
        (t.uart n).rxdrop = (s.uart n).rxdrop + 1#32
    else rxQueue (s.params n).capRx (t.uart n) =
        rxQueue (s.params n).capRx (s.uart n) ++ [(s.uart n).rdr] ∧
      (t.uart n).rxdrop = (s.uart n).rxdrop := by
  obtain ⟨v, hv, ⟨hfull, rfl⟩ | ⟨hroom, -, rfl⟩⟩ := execRxi_next h
  · rw [if_pos (by simpa [isFull] using hfull), uart_setUart_same]
    exact ⟨rfl, rfl⟩
  · rw [if_neg (by simpa [isFull] using hroom), uart_setUart_same, hv]
    exact ⟨rxQueue_store hcur v hroom, rfl⟩

variable (h : MachineInv s)
include h

/-- GET's M3 takes the front byte and responds with it. -/
theorem rxQueue_consumed {r : Nat} {v : Byte} (hml : s.ml = .getM3 n r v)
    (hstep : LaterStep (advance s) (.getM3 n r v) t) :
    rxQueue (s.params n).capRx (s.uart n) = some v :: rxQueue (s.params n).capRx (t.uart n) ∧
      t.resps = s.resps ++ [byteResponse v] := by
  obtain ⟨-, hinst, -, hM, -⟩ := machineInv_parts h
  obtain ⟨hcur, -⟩ := (hinst n).2
  rw [MlInv, hml] at hM
  obtain ⟨-, rfl, hne, hv⟩ := hM
  cases hstep
  have hfront := rxQueue_front hcur hne.symm
  rw [hv] at hfront
  simpa using hfront

/-- Every step that is neither RXI nor GET's M3 leaves the RX queue as it is. -/
theorem rxQueue_unchanged (e : UartEffect s m n t) (hrxi : ¬ (m = .irq n ∧ rxIrq (s.uart n) = true))
    (hget : ¬ (m = .main ∧ ∃ r v, s.ml = .getM3 n r v)) :
    rxQueue (s.params n).capRx (t.uart n) = rxQueue (s.params n).capRx (s.uart n) := by
  obtain ⟨-, hinst, -, -, -⟩ := machineInv_parts h
  cases e with
  | unchanged _ e => rw [e]
  | configured hmain hml r rest baud hp hd d f hl hr e =>
    rw [e, configure_of_cursorsZero (disabled_of_not_running (hinst n).1 (by simp [hl])).2]
    rfl
  | enabled hmain hml r rest hp hd hl e =>
    rw [e, enable_eq]
    rfl
  | consumed r v hmain hml e => exact absurd ⟨hmain, r, v, hml⟩ hget
  | txEmpty hirq hx he e =>
    rw [e, disarmIfEmpty_eq]
    rfl
  | txSent hirq hx b he e =>
    rw [e, disarmIfEmpty_eq]
    rfl
  | rxDropped hirq hx e => exact absurd ⟨hirq, hx⟩ hrxi
  | rxStored hirq hx v e => exact absurd ⟨hirq, hx⟩ hrxi
  | received hlrx v rest hw e =>
    rw [e, receive_eq]
    rfl
  | _ =>
    rename_i e
    rw [e]
    rfl

end

/-- Settles O49: RXI and GET's M3 each in its own way, and every other step leaves the queue as it is. -/
theorem receiveQueueIsFifo : Obligations.ReceiveQueueIsFifo := by
  unfold Obligations.ReceiveQueueIsFifo
  intro s t m n h hm hs
  obtain ⟨-, hinst, -, -, -⟩ := machineInv_parts h
  obtain ⟨hcur, -⟩ := (hinst n).2
  refine ⟨?_, ?_, rxQueue_unchanged h (step_effect n hm hs).1⟩
  · rintro rfl hx
    have hrxi := rxQueue_rxi (by simpa using hcur) (execRxi_of_step hm hs hx)
    simpa only [advance_uart, advance_params] using hrxi
  · rintro r v rfl hml
    have hstep := laterStep_of_step hm hs (by simp [hml])
    rw [hml] at hstep
    exact rxQueue_consumed h hml hstep

/-! ## The storm of KEEP_ARMED (R97) -/

section
variable {s t : State} {n : Inst} {m : Move}

/-- An interrupt or a Line step replaces one UART and nothing else. -/
theorem runMove_setUart (hmain : m ≠ .main) (h : runMove m s = .next t) :
    ∃ k u, t = s.setUart k u := by
  cases m with
  | main => exact absurd rfl hmain
  | irq k =>
    rw [runMove, exec_arbitrate] at h
    split at h
    · obtain ⟨v, -, ⟨-, rfl⟩ | ⟨-, -, rfl⟩⟩ := execRxi_next h <;> exact ⟨k, _, rfl⟩
    · obtain ⟨-, rfl⟩ | ⟨b, -, -, -, rfl⟩ := execTxi_next h <;> exact ⟨k, _, rfl⟩
  | ltx k =>
    obtain ⟨b, -, rfl⟩ := lineTransmit_next h
    exact ⟨k, _, rfl⟩
  | lrx k =>
    obtain ⟨-, rfl⟩ | ⟨v, rest, -, rfl⟩ := lineReceive_next h
    · exact ⟨k, _, (setUart_uart t k).symm⟩
    · exact ⟨k, _, rfl⟩

variable (hstorm : Storm n s)
include hstorm

/-- The armed source is pending, so the interrupt agent has a step and the mainline has none (R52, R53). -/
theorem storm_enabled : enabled s (.irq n) = true ∧ enabled s .main = false := by
  obtain ⟨-, hvalid, htie, htdre, -⟩ := hstorm
  have hpending : pending (s.uart n) = true := pending_iff.2 (.inl ⟨htie, htdre⟩)
  refine ⟨enabled_irq_iff.2 ⟨hvalid, hpending⟩, Bool.eq_false_iff.2 fun hmain => ?_⟩
  obtain ⟨-, hquiet, -⟩ := enabled_main_iff.1 hmain
  exact absurd hpending (by simp [hquiet])

/-- No interrupt or Line step ends the storm of a UART: TXI over the empty queue does nothing. -/
theorem storm_uart (hmain : m ≠ .main) (e : UartEffect s m n t) : (t.uart n).tie = true ∧
    (t.uart n).tdre = true ∧ (t.uart n).trd = (t.uart n).twr := by
  obtain ⟨hp, -, htie, htdre, hempty⟩ := hstorm
  cases e with
  | unchanged _ e =>
    rw [e]
    exact ⟨htie, htdre, hempty⟩
  | txEmpty hirq hx he e =>
    rw [e, hp]
    exact ⟨htie, htdre, hempty⟩
  | txSent hirq hx b hne e => exact absurd hempty.symm hne
  | rxDropped hirq hx e =>
    rw [e]
    exact ⟨htie, htdre, hempty⟩
  | rxStored hirq hx v e =>
    rw [e]
    exact ⟨htie, htdre, hempty⟩
  | transmitted hltx b e =>
    rw [e]
    exact ⟨htie, rfl, hempty⟩
  | received hlrx v rest hw e =>
    rw [e, receive_eq]
    exact ⟨htie, htdre, hempty⟩
  | _ => exact absurd ‹m = .main› hmain

/-- One step of a storm: there is one, and it goes on from a state of the invariant. -/
theorem storm_step (h : MachineInv s) : ∃ t, step s = .next t ∧ MachineInv t ∧ Storm n t ∧
    t.ml = s.ml ∧ t.program = s.program ∧ t.resps = s.resps := by
  obtain ⟨hirq, hmain⟩ := storm_enabled hstorm
  have hsome : choose s ≠ none := fun hnone => by simp [choose_eq_none_iff.1 hnone] at hirq
  obtain ⟨m, hm⟩ := Option.ne_none_iff_exists'.1 hsome
  obtain ⟨t, hs⟩ := step_next_of_choose h hm
  have hne : m ≠ .main := fun he => by simp [he ▸ choose_enabled hm] at hmain
  have huart := storm_uart hstorm hne (step_effect n hm hs).1
  obtain ⟨hp, hvalid, -⟩ := hstorm
  have hinv := machineInv_step h hs
  obtain ⟨-, -, hrun⟩ := step_chosen hm hs
  obtain ⟨k, u, rfl⟩ := runMove_setUart hne hrun
  exact ⟨_, hs, hinv, ⟨by simpa using hp, by simpa using hvalid, huart⟩, by simp⟩

end

/-- A run of one step more from a state whose step answers a next state. -/
theorem run_succ {M : Host.Core} {s t : M.State} (h : M.step s = .next t) (k : Nat) :
    M.run (k + 1) s = M.run k t := by
  rw [Host.Core.run, h]

/-- Settles O50, by induction on the number of steps. -/
theorem keepArmedStormNeverEnds : Obligations.KeepArmedStormNeverEnds := by
  unfold Obligations.KeepArmedStormNeverEnds
  intro n s h hstorm k
  induction k generalizing s with
  | zero => exact ⟨s, rfl, hstorm, rfl, rfl, rfl⟩
  | succ k ih =>
    obtain ⟨s', hs, hinv, hstorm', hml, hprogram, hresps⟩ := storm_step hstorm h
    obtain ⟨t, hrun, hstormt, hml', hprogram', hresps'⟩ := ih s' hinv hstorm'
    refine ⟨t, ?_, hstormt, hml'.trans hml, hprogram'.trans hprogram, hresps'.trans hresps⟩
    exact (run_succ hs k).trans hrun

end Sys2Proof.Machine

/-! PROOF. 43_lifecycle.md: INIT (R109, R110), START (R111) and STAT (R113), each by an equation per branch. -/

namespace Sys2Proof.Machine

/-- The response of CALC and INIT holds the pair in RATE's positions and zeros elsewhere (R68). -/
theorem ratePair_fields (d : BitVec 13) (f : BitVec 5) :
    sbrOf (ratePair d f) = d ∧ brfaOf (ratePair d f) = f ∧ otherOf (ratePair d f) = 0#14 := by
  rw [ratePair_eq_rateMerge]
  exact ⟨sbrOf_rateMerge _ d f, brfaOf_rateMerge _ d f, otherOf_rateMerge _ d f⟩

/-! ## INIT, an equation per branch (R109) -/

section
variable {s : State} {n : Inst} {baud : Word}

theorem exec_init_of_ok {d : BitVec 13} {f : BitVec 5} (hl : (s.uart n).life = .uninit)
    (h : rateCalc (s.params n).moduleClockHz baud = .ok (d, f)) : exec (.init n baud) s =
    .next (respond (ratePair d f) (s.setUart n (configure (s.uart n) baud d f))) := by
  simp [exec, execInit, hl, h]

theorem exec_init_of_not_uninit (hl : (s.uart n).life ≠ .uninit) :
    exec (.init n baud) s = raiseFor (.init n baud) .badState s := by
  simp [exec, execInit, hl]

theorem exec_init_of_error {c : FaultCode} (hl : (s.uart n).life = .uninit)
    (h : rateCalc (s.params n).moduleClockHz baud = .error c) :
    exec (.init n baud) s = raiseFor (.init n baud) c s := by
  simp [exec, execInit, hl, h]

end

/-- Settles O14: RATE is written by the read-modify-write of rateWrite and the response is the pair. -/
theorem initConfigures : Obligations.InitConfigures := by
  unfold Obligations.InitConfigures
  intro s n baud d f hl hcalc
  obtain ⟨hsbr, hbrfa, hother⟩ := ratePair_fields d f
  refine ⟨rateMerge (s.uart n).rate d f, ratePair d f, sbrOf_rateMerge _ d f, brfaOf_rateMerge _ d f,
    otherOf_rateMerge _ d f, hsbr, hbrfa, hother, ?_⟩
  rw [exec_init_of_ok hl hcalc, respond_setUart_eq, configure, rateWrite]

/-- Settles O15: INIT looks at LIFE before it computes the rate. -/
theorem initFaultsInOrder : Obligations.InitFaultsInOrder := by
  unfold Obligations.InitFaultsInOrder
  intro s n baud hs
  constructor
  · intro hl
    exact (exec_init_of_not_uninit hl).trans (raiseFor_of_no_fault _ _ hs)
  · intro c hl hcalc
    exact (exec_init_of_error hl hcalc).trans (raiseFor_of_no_fault _ c hs)

/-! ## START, an equation per branch (R111) -/

section
variable {s : State} {n : Inst}

theorem exec_start_of_configured (hl : (s.uart n).life = .configured) (hp : (s.uart n).prdy = true) :
    exec (.start n) s = .next (respond 0#32 (s.setUart n (enable (s.params n).mode (s.uart n)))) := by
  simp [exec, execStart, hl, hp]

theorem exec_start_of_not_ready (h : (s.uart n).life ≠ .configured ∨ (s.uart n).prdy = false) :
    exec (.start n) s = raiseFor (.start n) .badState s := by
  by_cases hl : (s.uart n).life = .configured
  · have hp : (s.uart n).prdy = false := h.resolve_left (not_not_intro hl)
    simp [exec, execStart, hp]
  · simp [exec, execStart, hl]

end

/-- Settles O16: the mode decides what START enables, and both of its checks raise BAD_STATE. -/
theorem startEnables : Obligations.StartEnables := by
  unfold Obligations.StartEnables
  intro s n
  refine ⟨fun hl hp => ?_, fun hbad hs => ?_⟩
  · have hstart := exec_start_of_configured hl hp
    rw [respond_setUart_eq] at hstart
    constructor
    · intro hmode
      rw [hstart, hmode, enable]
    · intro hmode
      rw [hstart, hmode, enable]
  · exact (exec_start_of_not_ready hbad).trans (raiseFor_of_no_fault _ _ hs)

/-! ## STAT (R113) -/

section
variable {s : State} {n : Inst} {sel : Byte}

/-- No selector above 6 names an image (R42). -/
theorem image_eq_none (h : 6 < sel.toNat) : image s n sel = none := by
  obtain ⟨k, hk⟩ : ∃ k, sel.toNat = k + 7 := ⟨sel.toNat - 7, by omega⟩
  simp only [image, hk]

theorem exec_stat_of_image {v : Word} (h : image s n sel = some v) :
    exec (.stat n sel) s = .next (respond v s) := by
  simp only [exec, execStat, h]

theorem exec_stat_of_no_image (h : image s n sel = none) :
    exec (.stat n sel) s = raiseFor (.stat n sel) .illegalOp s := by
  simp only [exec, execStat, h]

end

/-- Settles O17: the selectors 0 to 6 are those that name an image. -/
theorem statReadsImage : Obligations.StatReadsImage := by
  unfold Obligations.StatReadsImage
  intro s n
  refine ⟨fun sel hsel => ?_, rfl, rfl, rfl, rfl, fun sel hsel hs => ?_⟩
  · obtain ⟨v, hv⟩ := Option.ne_none_iff_exists'.1 (image_ne_none (s := s) (n := n) hsel)
    exact ⟨v, hv, exec_stat_of_image hv⟩
  · exact (exec_stat_of_no_image (image_eq_none hsel)).trans (raiseFor_of_no_fault _ _ hs)

end Sys2Proof.Machine

/-! PROOF. 44_polled.md: BPUT (R114) and BGET (R115), M1 of a running polled instance, the guard of M2 and
M2's effect. -/

namespace Sys2Proof.Machine

section
variable {s : State} {n : Inst}

/-! ## M1 -/

theorem exec_bput_of_inMode (b : Byte) (hm : InMode s n .polled) :
    exec (.bput n b) s = .next (s.setMl (.bputM2 n b)) := by
  simp only [exec, execBput, channelCheck_none.2 hm]

theorem exec_bget_of_inMode (hm : InMode s n .polled) :
    exec (.bget n) s = .next (s.setMl (.bgetM2 n)) := by
  simp only [exec, execBget, channelCheck_none.2 hm]

/-! ## The guards of M2 (R53) -/

theorem mainReady_bputM2 (b : Byte) : mainReady (s.setMl (.bputM2 n b)) = (s.uart n).tdre := by
  simp [mainReady]

theorem mainReady_bgetM2 : mainReady (s.setMl (.bgetM2 n)) = (s.uart n).rdrf := by
  simp [mainReady]

/-! ## M2 -/

theorem resume_bputM2 (b : Byte) : resume (s.setMl (.bputM2 n b)) =
    .next (respond 0#32 (s.setUart n { s.uart n with tdr := some b, tdre := false })) := by
  simp [resume, bputWrite, setMl_setUart]

theorem resume_bgetM2 {v : Byte} (hv : (s.uart n).rdr = some v) : resume (s.setMl (.bgetM2 n)) =
    .next (respond (byteResponse v) (s.setUart n { s.uart n with rdrf := false })) := by
  simp [resume, bgetRead, readData_ok.2 hv, setMl_setUart]

end

/-- Settles O29: M1 only moves the mainline on, and M2's guard is the flag its write then clears. -/
theorem bputWaitsThenWrites : Obligations.BputWaitsThenWrites := by
  unfold Obligations.BputWaitsThenWrites
  intro s n b hm
  refine ⟨exec_bput_of_inMode b hm, mainReady_bputM2 b, ?_⟩
  rw [← respond_setUart_eq]
  exact resume_bputM2 b

/-- Settles O30: M1 only moves the mainline on, and M2's guard is the flag its read then clears. -/
theorem bgetWaitsThenReads : Obligations.BgetWaitsThenReads := by
  unfold Obligations.BgetWaitsThenReads
  intro s n hm
  refine ⟨exec_bget_of_inMode hm, mainReady_bgetM2, fun v hv => ?_⟩
  rw [← respond_setUart_eq]
  exact resume_bgetM2 hv

end Sys2Proof.Machine

/-! PROOF. 45_line.md: the Line agent's two moves, LTX (R117) and LRX (R118). -/

namespace Sys2Proof.Machine

/-! ## What an arriving byte does, an equation per branch (R118) -/

section
variable {u : Uart}

theorem receive_of_disabled (v : Byte) (hre : u.re = false) : receive v u = u := by
  simp only [receive, if_pos hre]

theorem receive_of_free (v : Byte) (hre : u.re = true) (hrdrf : u.rdrf = false) :
    receive v u = { u with rdr := some v, rdrf := true } := by
  simp [receive, hre, hrdrf]

theorem receive_of_overrun (v : Byte) (hre : u.re = true) (hrdrf : u.rdrf = true) :
    receive v u = { u with ovr := true } := by
  simp [receive, hre, hrdrf]

end

/-! ## The moves LTX and LRX -/

section
variable {s : State} {n : Inst}

theorem runMove_ltx {b : Byte} (hb : (s.uart n).tdr = some b) : runMove (.ltx n) s =
    .next (s.setUart n { s.uart n with wireOut := (s.uart n).wireOut ++ [b], tdre := true }) := by
  simp only [runMove, lineTransmit, readData_ok.2 hb]

/-- `u` is the receiver once the byte has left the wire and arrived. -/
theorem runMove_lrx {v : Byte} {rest : List Byte} {u : Uart} (hw : (s.uart n).wireIn = v :: rest)
    (hu : receive v { s.uart n with wireIn := rest } = u) :
    runMove (.lrx n) s = .next (s.setUart n u) := by
  simp only [runMove, lineReceive, hw, hu]

end

/-- Settles O31: LTX reads TDR, which its effect leaves as it is. -/
theorem transmitterTakesByte : Obligations.TransmitterTakesByte := by
  unfold Obligations.TransmitterTakesByte
  intro s n
  exact ⟨enabled_ltx_iff, fun b hb => runMove_ltx hb⟩

/-- Settles O32: LRX takes the byte off the wire, and RE and RDRF decide what its arrival does. -/
theorem receiverTakesByte : Obligations.ReceiverTakesByte := by
  unfold Obligations.ReceiverTakesByte
  intro s n
  refine ⟨enabled_lrx_iff, fun v rest hw => ?_⟩
  refine ⟨fun hre => ?_, fun hre hrdrf => ?_, fun hre hrdrf => ?_⟩
  · exact runMove_lrx hw (receive_of_disabled v hre)
  · exact runMove_lrx hw (receive_of_free v hre hrdrf)
  · exact runMove_lrx hw (receive_of_overrun v hre hrdrf)

end Sys2Proof.Machine

/-! PROOF. 60_exceptions.md: a fault is precise (R122, R123), and an entry point saves nothing of what it
interrupts because it writes only the UART it serves (R131, R133). -/

namespace Sys2Proof.Machine

section
variable {s t : State} {n : Inst} {i : Instr}

/-- An instruction that leaves a fault recorded where none was has raised it, and done nothing else (R122). -/
theorem exec_next_faulted (hs : s.fault.valid = false) (h : exec i s = .next t)
    (ht : t.fault.valid = true) :
    ∃ c, t = { s with fault := ⟨true, faultNumber c, instField (encode i).opw, (encode i).opw⟩ } := by
  obtain hkeep | ⟨c, rfl, -⟩ := exec_next_fault h
  · rw [hkeep, hs] at ht
    cases ht
  · exact ⟨c, (raiseFor_next.1 (raiseFor_of_no_fault i c hs)).symm⟩

/-- An entry point writes the UART it serves and nothing else of the machine (R131). -/
theorem exec_entryPoint_replaces (hi : i = .txi n ∨ i = .rxi n) (h : exec i s = .next t) :
    ∃ u, t = s.setUart n u := by
  obtain rfl | rfl := hi
  · obtain ⟨-, rfl⟩ | ⟨b, -, -, -, rfl⟩ := execTxi_next h <;> exact ⟨_, rfl⟩
  · obtain ⟨v, -, ⟨-, rfl⟩ | ⟨-, -, rfl⟩⟩ := execRxi_next h <;> exact ⟨_, rfl⟩

/-- Of LIFE and the enables of the UART it serves an entry point may write TIE alone (R133). -/
theorem exec_entryPoint_enables (hi : i = .txi n ∨ i = .rxi n) (h : exec i s = .next t) :
    (t.uart n).te = (s.uart n).te ∧ (t.uart n).re = (s.uart n).re ∧
    (t.uart n).rie = (s.uart n).rie ∧ (t.uart n).life = (s.uart n).life := by
  obtain rfl | rfl := hi
  · obtain ⟨-, -, frame⟩ := execTxi_frame h
    rw [frame]
    exact ⟨rfl, rfl, rfl, rfl⟩
  · obtain ⟨-, -, -, frame⟩ := execRxi_frame h
    rw [frame]
    exact ⟨rfl, rfl, rfl, rfl⟩

end

/-- Settles O33: what is left of a faulting instruction is its record, whose code is one of R121's six, and
a machine with a valid record is halted. -/
theorem faultsArePrecise : Obligations.FaultsArePrecise := by
  unfold Obligations.FaultsArePrecise
  intro i s t hs h ht
  obtain ⟨-, -, hhalted⟩ := faultedMachineHasNoStep t ht
  obtain ⟨c, hrecord⟩ := exec_next_faulted hs h ht
  obtain ⟨hlow, hhigh⟩ := faultNumber_range c
  exact ⟨⟨faultNumber c, hlow, hhigh, hrecord⟩, hhalted⟩

/-- Settles O38: the UART served is all that changes, and of its enables only TIE. -/
theorem entryPointSavesNothing : Obligations.EntryPointSavesNothing := by
  unfold Obligations.EntryPointSavesNothing
  intro i n s t hi h
  have henables := exec_entryPoint_enables hi h
  obtain ⟨u, rfl⟩ := exec_entryPoint_replaces hi h
  exact ⟨setUart_ml .., setUart_fault .., setUart_resps .., setUart_program .., setUart_cfg ..,
    setUart_agenda .., setUart_tick .., uart_setUart_other .., henables⟩

end Sys2Proof.Machine
